-- ==== Sys2Proof/Word.lean ====
section
/-! DEFINITION. The widths of the cvm CORE (00_scope.md R5, R10): every value is an unsigned bit vector. -/

namespace Sys2Proof

/-- Instruction word, register, memory word, pc and sp: 16 bits, unsigned (R5, R10). -/
abbrev Word := BitVec 16

/-- `imm`, a data address, an output byte: 8 bits, unsigned (R5, R10). -/
abbrev Byte := BitVec 8

/-- The opcode field and the register fields `r1`, `r2`, `r3`: 4 bits, unsigned (R5, R61). -/
abbrev Nibble := BitVec 4

end Sys2Proof
end

