-- ==== Sys2Proof/Syntax.lean ====
section
/-! DEFINITION. The instruction set: one constructor for each operation of the opcode map (30_encoding.md R66, R68).

A constructor carries EVERY field of its word, the ignored ones too (R64: "The decoder still delivers every field",
R71), so that encoding is the exact inverse of decoding (R63; log entry 15). The two shapes are the two forms of
`Encode` in R63: `r1 r2 r3`, and `r1 imm`.
A register field is the raw 4-bit value: values 4..15 are encodable (90_conflicts.md C1) and what they do is the
instruction's business (R23, R72).
The table's rows "unassigned" for opcodes 9, 10 and 11 with `STACK = Absent` are the words of `push`, `pop` and
`jump`: the decoder reads no configuration (R64), the dispatcher does (R84; log entry 13). -/

namespace Sys2Proof

inductive Instr where
  /-- Opcode 0, R85; both fields ignored. -/
  | nop (r1 : Nibble) (imm : Byte)
  /-- Opcode 1, R100; `r1` destination register. -/
  | loadi (r1 : Nibble) (imm : Byte)
  /-- Opcode 2, R101; `r1` destination, `r2` and `r3` source registers. -/
  | add (r1 r2 r3 : Nibble)
  /-- Opcode 3, R102; `r1` destination, `r2` source register, `r3` a literal count. -/
  | shr (r1 r2 r3 : Nibble)
  /-- Opcode 4, R120; `r1` destination register, `imm` word address. -/
  | load (r1 : Nibble) (imm : Byte)
  /-- Opcode 5, R121; `r1` source register, `imm` word address. -/
  | store (r1 : Nibble) (imm : Byte)
  /-- Opcode 6, R130; `r1` ignored, `imm` syscall number. -/
  | syscall (r1 : Nibble) (imm : Byte)
  /-- Opcode 7, R103; `r1` destination, `r2` source register, `r3` a literal count. -/
  | shl (r1 r2 r3 : Nibble)
  /-- Opcode 8, R87; both fields ignored. -/
  | halt (r1 : Nibble) (imm : Byte)
  /-- Opcode 9, R142 (R86 with `STACK = Absent`); `r1` source register, `imm` ignored. -/
  | push (r1 : Nibble) (imm : Byte)
  /-- Opcode 10, R143 (R86 with `STACK = Absent`); `r1` destination register, `imm` ignored. -/
  | pop (r1 : Nibble) (imm : Byte)
  /-- Opcode 11, R145 (R86 with `STACK = Absent`); `r1` ignored, `imm` target. -/
  | jump (r1 : Nibble) (imm : Byte)
  /-- Opcodes 12 to 15, R86: opcode bits 15-14 are `11`, `low` is bits 13-12; every other field ignored. -/
  | unassigned (low : BitVec 2) (r1 : Nibble) (imm : Byte)
  deriving DecidableEq, Repr

end Sys2Proof
end

