-- ==== Sys2Proof/WellFormed.lean ====
section
/-! DEFINITION. Which instructions a program may execute whatever the machine's state: every field used as a register
index names one of the four registers (10_state.md R23; 30_encoding.md R66, R72; 70_reset_and_hazards.md R185 item 1).
An ill-formed instruction still decodes and still runs (into the fault of R23): nothing here guards the machine. -/

namespace Sys2Proof

/-- A register field that names a register: 0..3 (R23). -/
def regFieldOk (k : Nibble) : Bool := decide (k.toNat < 4)

/-- The register-index fields of R66 are in range. `r3` of the shifts is a count and is not checked. -/
def Instr.wellFormed : Instr → Bool
  | .nop _ _ => true
  | .loadi r1 _ => regFieldOk r1
  | .add r1 r2 r3 => regFieldOk r1 && regFieldOk r2 && regFieldOk r3
  | .shr r1 r2 _ => regFieldOk r1 && regFieldOk r2
  | .load r1 _ => regFieldOk r1
  | .store r1 _ => regFieldOk r1
  | .syscall _ _ => true
  | .shl r1 r2 _ => regFieldOk r1 && regFieldOk r2
  | .halt _ _ => true
  | .push r1 _ => regFieldOk r1
  | .pop r1 _ => regFieldOk r1
  | .jump _ _ => true
  | .unassigned _ _ _ => true

end Sys2Proof
end

