-- ==== Sys2Proof/Decode.lean ====
section
/-! DEFINITION. The instruction_decoder (30_encoding.md R60 to R66) and the encoder (R63).

The decoder is a pure total function of one 16-bit word: it reads neither the configuration nor `pc` and checks
nothing (R64). What is refused, by name, is only a stream that holds no whole word, or a table word that is not one
16-bit word (R60, R73). -/

namespace Sys2Proof

/-- The outputs of the instruction_decoder block (R61, R65). -/
structure Fields where
  opcode : Nibble
  r1 : Nibble
  r2 : Nibble
  r3 : Nibble
  imm : Byte
  deriving DecidableEq, Repr

/-- `Decode(w)` of R61: the bit extraction. -/
def fieldsOf (w : Word) : Fields where
  opcode := w.extractLsb' 12 4
  r1 := w.extractLsb' 8 4
  r2 := w.extractLsb' 4 4
  r3 := w.extractLsb' 0 4
  imm := w.extractLsb' 0 8

/-- The opcode map (R68): the opcode alone selects the operation, which takes the fields R66 gives it. -/
def ofFields (f : Fields) : Instr :=
  match f.opcode.toNat with
  | 0 => .nop f.r1 f.imm
  | 1 => .loadi f.r1 f.imm
  | 2 => .add f.r1 f.r2 f.r3
  | 3 => .shr f.r1 f.r2 f.r3
  | 4 => .load f.r1 f.imm
  | 5 => .store f.r1 f.imm
  | 6 => .syscall f.r1 f.imm
  | 7 => .shl f.r1 f.r2 f.r3
  | 8 => .halt f.r1 f.imm
  | 9 => .push f.r1 f.imm
  | 10 => .pop f.r1 f.imm
  | 11 => .jump f.r1 f.imm
  | _ => .unassigned (f.opcode.extractLsb' 0 2) f.r1 f.imm

/-- Decoding a word. Total: every 16-bit value decodes (R64, R69). -/
def decode (w : Word) : Instr := ofFields (fieldsOf w)

/-- Why a stream of words gives no instruction. -/
inductive DecodeError where
  /-- The stream is empty: an instruction is exactly one word (R60). -/
  | noWord
  /-- The bits are not one 16-bit word: no instruction is longer or shorter (R60, R73). -/
  | notOneWord
  deriving DecidableEq, Repr

/-- The first instruction of a stream of words, with the rest of the stream (R60: one word, never more). -/
def decodeWords : List Word → Except DecodeError (Instr × List Word)
  | [] => .error .noWord
  | w :: rest => .ok (decode w, rest)

/-- The words of an instruction given as a number of `nbits` bits: one word, the bits above `nbits` being 0. -/
def tableWords (nbits w : Nat) : Except DecodeError (List Word) :=
  if 0 < nbits ∧ nbits ≤ 16 ∧ w < 2 ^ nbits then .ok [BitVec.ofNat 16 w] else .error .notOneWord

/-- What the decoder reads from an instruction whose bits are `w`, numbered as spec/opcode_table.json numbers them. -/
def decodeTableWord (nbits w : Nat) : Option Instr :=
  match tableWords nbits w with
  | .error _ => none
  | .ok ws =>
    match decodeWords ws with
    | .error _ => none
    | .ok (i, _) => some i

/-- `Encode(opcode, r1, r2, r3)` of R63. -/
def encodeR (opcode r1 r2 r3 : Nibble) : Word :=
  (opcode.setWidth 16 <<< 12) ||| (r1.setWidth 16 <<< 8) ||| (r2.setWidth 16 <<< 4) ||| r3.setWidth 16

/-- `Encode(opcode, r1, imm)` of R63. -/
def encodeI (opcode r1 : Nibble) (imm : Byte) : Word :=
  (opcode.setWidth 16 <<< 12) ||| (r1.setWidth 16 <<< 8) ||| imm.setWidth 16

/-- The opcode of an instruction, from the opcode map (R68). Opcodes 12 to 15 are `11` above the two low bits. -/
def Instr.opcode : Instr → Nibble
  | .nop _ _ => 0
  | .loadi _ _ => 1
  | .add _ _ _ => 2
  | .shr _ _ _ => 3
  | .load _ _ => 4
  | .store _ _ => 5
  | .syscall _ _ => 6
  | .shl _ _ _ => 7
  | .halt _ _ => 8
  | .push _ _ => 9
  | .pop _ _ => 10
  | .jump _ _ => 11
  | .unassigned low _ _ => (3 : BitVec 2) ++ low

/-- The word of an instruction, from R63 and R66. -/
def encode : Instr → Word
  | .nop r1 imm => encodeI 0 r1 imm
  | .loadi r1 imm => encodeI 1 r1 imm
  | .add r1 r2 r3 => encodeR 2 r1 r2 r3
  | .shr r1 r2 r3 => encodeR 3 r1 r2 r3
  | .load r1 imm => encodeI 4 r1 imm
  | .store r1 imm => encodeI 5 r1 imm
  | .syscall r1 imm => encodeI 6 r1 imm
  | .shl r1 r2 r3 => encodeR 7 r1 r2 r3
  | .halt r1 imm => encodeI 8 r1 imm
  | .push r1 imm => encodeI 9 r1 imm
  | .pop r1 imm => encodeI 10 r1 imm
  | .jump r1 imm => encodeI 11 r1 imm
  | .unassigned low r1 imm => encodeI ((3 : BitVec 2) ++ low) r1 imm

/-- The words of an instruction: always exactly one (R60). -/
def encodeWords (i : Instr) : List Word := [encode i]

end Sys2Proof
end

