-- ==== Sys2Proof/Config.lean ====
section
/-! DEFINITION. What is fixed when an instance is constructed (00_scope.md R3, R4, R5), and the sizes the spec fixes
for every instance. There is no free value: the spec leaves no value open after an instruction that goes on. -/

namespace Sys2Proof

/-- Construction-time parameter `LAYOUT` (R3): one shared array, or a separate read-only code array. -/
inductive Layout where
  | unified
  | split
  deriving DecidableEq, Repr

/-- Construction-time parameter `STACK` (R3): whether `sp`, PUSH, POP and JUMP exist. It also decides where
syscall 0 finds its address (R4). -/
inductive StackOption where
  | present
  | absent
  deriving DecidableEq, Repr

/-- The two parameters of an instance, fixed for its life (R3). All four combinations are legal (D2). -/
structure Config where
  layout : Layout
  stack : StackOption
  deriving DecidableEq, Repr

namespace Config

/-- `MEM_WORDS` (R5, R40): the data memory is 256 words, addresses 0..255. -/
abbrev memWords : Nat := 256

/-- `NREG` (R5, R21): four general registers. -/
abbrev numRegs : Nat := 4

/-- The longest program a `Split` instance takes (R43, D5). -/
abbrev maxSplitWords : Nat := 65535

/-- The longest program construction accepts (R181, R182). -/
def maxProgramWords : Layout → Nat
  | .unified => memWords
  | .split => maxSplitWords

end Config

end Sys2Proof
end

