-- ==== Sys2Proof/Machine/State.lean ====
section
/-! DEFINITION. The architectural state of a cvm CORE instance (10_state.md R20, "exactly"), the reasons a step can
stop, and the state after construction (R34). Plain data throughout. -/

namespace Sys2Proof.Machine

/-- The register file: "exactly 4 general-purpose registers, each an unsigned 16-bit value" (R21). -/
structure RegFile where
  x0 : Word
  x1 : Word
  x2 : Word
  x3 : Word
  deriving DecidableEq, Repr

/-- A word memory as (word address, word) pairs in canonical form (`Memory.wf` in Machine/Ops.lean): addresses strictly
rising and below 256, no listed word equal to what an unlisted address reads as. Words, not bytes: "address `a` names one
16-bit word, and no address names a byte" (20_memory.md R40; log entry 5). -/
abbrev Memory := List (Nat × Word)

/-- What an unlisted address reads as: memory is zero-initialized (R34, R40). -/
abbrev Memory.unlisted : Word := 0

/-- The state (R20). `cfg` holds the construction-time parameters, which no instruction changes (R3; log entry 1). -/
structure State where
  /-- `LAYOUT` and `STACK` of this instance (R3). -/
  cfg : Config
  /-- `x[0]`..`x[3]` (R21). -/
  regs : RegFile
  /-- Program counter: the code address of the next instruction (R26). -/
  pc : Word
  /-- Stack pointer: the depth of the stack (R30). With `STACK = Absent` it does not exist and stays 0 (log entry 4). -/
  sp : Word
  /-- The running flag (R28). -/
  running : Bool
  /-- The memory array `M[0..255]` (20_memory.md R40). -/
  mem : Memory
  /-- The read-only code array `C` of a `Split` instance (20_memory.md R41). With `LAYOUT = Unified` it does not exist
  and stays empty (log entry 4). -/
  code : List Word
  /-- The bytes emitted so far, oldest first (43_syscall.md R133). -/
  out : List Byte
  deriving DecidableEq, Repr

/-- The six reasons of 60_exceptions.md R161: "the model's whole fault vocabulary". Each stands for a condition whose
hardware behaviour the spec leaves unspecified, so stopping is SAFE: nothing is claimed of what follows. None is a
hardware trap (R160). A fault carries no state because the faulting step writes none (R162; log entry 19). -/
inductive Fault where
  /-- Raised by every step's fetch at `pc >= CODE_SIZE` (20_memory.md R44; D4, D5). Safe (log entry 7). -/
  | fetchOutOfRange (pc : Word)
  /-- Raised by LOADI, ADD, SHR, LOAD, STORE, SHL, PUSH and POP when a field used as a register index holds 4..15
  (10_state.md R23; D3). Safe (log entry 6). -/
  | regIndexOutOfRange (k : Nibble)
  /-- Raised by PUSH at `sp = 256` (44_stack_jump.md R142; D7). Safe (log entry 8). -/
  | stackOverflow
  /-- Raised by POP, and by SYSCALL 0 with `STACK = Present`, at `sp = 0` (44_stack_jump.md R144; D7). Safe (log entry 8). -/
  | stackUnderflow
  /-- Raised by SYSCALL 0 when the string address is above 255 (43_syscall.md R134; D9). Safe (log entry 9). -/
  | syscallAddrOutOfRange (addr : Word)
  /-- Raised by SYSCALL 0 when no zero byte ends the string (43_syscall.md R134; D9). Safe (log entry 9). -/
  | stringUnterminated (addr : Word)
  deriving DecidableEq, Repr

/-- Reasons for which nothing is built or run. No step ever refuses (00_scope.md R12). -/
inductive Refusal where
  /-- The interface's constructor for an instruction without a meaning. No arm of `exec` uses it: every instruction of
  the table has its meaning. Safe. -/
  | notModelled (mnemonic : String)
  /-- Raised by construction alone, for a program of `words` words that does not fit (70_reset_and_hazards.md R182;
  D5, D6). Safe (log entry 23). -/
  | programTooLong (words : Nat)
  deriving DecidableEq, Repr

/-- The instance right after construction from the empty program, `LAYOUT = Unified`, `STACK = Present`: every value is
R34's. The choice of the configuration and of the empty program is the model's (DESIGN CHOICE, log entries 1 and 2);
`construct` in Machine/Construct.lean gives the state after construction for every program and configuration. -/
def State.reset : State where
  cfg := ⟨.unified, .present⟩
  regs := ⟨0, 0, 0, 0⟩
  pc := 0
  sp := 0
  running := true
  mem := []
  code := []
  out := []

end Sys2Proof.Machine
end

