-- ==== Sys2Proof/Machine/Ops.lean ====
section
/-! DEFINITION. The primitives of 00_scope.md R11 over registers, memory, the code array and the output stream, and the
way a step's body ends. The cvm CORE has no trap, no trap entry and no trap return (60_exceptions.md R160, R165, R166):
in place of an exception entry stands `raise`, the model's fault outcome, which writes nothing (R162). -/

namespace Sys2Proof.Machine

/-- How a step ends. -/
abbrev StepOutcome := Host.Outcome State Fault Refusal

/-- `raise Fault(reason)` (R11, R161): the step has no effect at all (R162). -/
def raise {α : Type} (r : Fault) : Except Fault α := .error r

/-- The end of an instruction's body: a next state, or the fault raised on the way (00_scope.md R12). -/
def complete : Except Fault State → StepOutcome
  | .ok s => .next s
  | .error r => .fault r

/-! ### General registers (10_state.md R21 to R25) -/

/-- A register number that has passed `RegIdx`. -/
abbrev RegIndex := Fin 4

/-- `x[k]` in the register file (R21). -/
def RegFile.get (r : RegFile) (k : RegIndex) : Word :=
  match k with
  | 0 => r.x0
  | 1 => r.x1
  | 2 => r.x2
  | 3 => r.x3

/-- `x[k] <- v` in the register file (R21). -/
def RegFile.set (r : RegFile) (k : RegIndex) (v : Word) : RegFile :=
  match k with
  | 0 => { r with x0 := v }
  | 1 => { r with x1 := v }
  | 2 => { r with x2 := v }
  | 3 => { r with x3 := v }

/-- `x[k]` (R11). No register is hardwired (R21). -/
def State.readReg (s : State) (k : RegIndex) : Word := s.regs.get k

/-- `x[k] <- v` (R11). -/
def State.writeReg (s : State) (k : RegIndex) (v : Word) : State := { s with regs := s.regs.set k v }

/-! ### The memory array M (20_memory.md R40, R45, R46) -/

/-- The word an address holds; an unlisted address reads as the construction value 0 (R34, R40). -/
def Memory.read : Memory → Nat → Word
  | [], _ => Memory.unlisted
  | (b, w) :: m, a => if b = a then w else Memory.read m a

/-- Sets one word and keeps the canonical form: writing what an unlisted address reads as removes the entry. -/
def Memory.write : Memory → Nat → Word → Memory
  | [], a, v => if v = Memory.unlisted then [] else [(a, v)]
  | (b, w) :: m, a, v =>
    if a < b then (if v = Memory.unlisted then (b, w) :: m else (a, v) :: (b, w) :: m)
    else if a = b then (if v = Memory.unlisted then m else (a, v) :: m)
    else (b, w) :: Memory.write m a v

/-- The canonical form from address `lo` on: addresses strictly rising, below 256, no listed word that an unlisted
address reads as. -/
def Memory.wfFrom : Nat → Memory → Bool
  | _, [] => true
  | lo, (a, v) :: m =>
    decide (lo ≤ a) && decide (a < Config.memWords) && decide (v ≠ Memory.unlisted) && Memory.wfFrom (a + 1) m

/-- The canonical form of a memory. -/
def Memory.wf (m : Memory) : Bool := Memory.wfFrom 0 m

/-- The memory whose words from address `a` on are the given ones (20_memory.md R42). -/
def Memory.ofWords : Nat → List Word → Memory
  | _, [] => []
  | a, w :: ws => if w = Memory.unlisted then Memory.ofWords (a + 1) ws else (a, w) :: Memory.ofWords (a + 1) ws

/-- `MemRead(a, 1)` (R45): the address is 8 bits, so it is always in 0..255. -/
def State.memRead (s : State) (a : Byte) : Word := s.mem.read a.toNat

/-- `MemWrite(a, 1, v)` (R46). -/
def State.memWrite (s : State) (a : Byte) (v : Word) : State := { s with mem := s.mem.write a.toNat v }

/-! ### The program counter and the code array (10_state.md R26; 20_memory.md R41, R44) -/

/-- `pc <- v` (R11). -/
def State.setPc (s : State) (v : Word) : State := { s with pc := v }

/-- The PC advance of a step, before the body (40_engine.md R83). -/
def State.advancePc (s : State) : State := s.setPc (s.pc + 1)

/-- `CODE_SIZE` (00_scope.md R5, 20_memory.md R41). -/
def State.codeSize (s : State) : Nat :=
  match s.cfg.layout with
  | .unified => Config.memWords
  | .split => s.code.length

/-- `Fetch(a)` (20_memory.md R44). In `Unified` it reads `M` itself, so a store is seen by the next fetch (R56). -/
def State.fetch (s : State) (a : Word) : Except Fault Word :=
  if a.toNat < s.codeSize then
    match s.cfg.layout with
    | .unified => .ok (s.mem.read a.toNat)
    | .split => .ok (s.code.getD a.toNat 0)
  else raise (.fetchOutOfRange a)

/-! ### The stack pointer, the output stream (10_state.md R30; 43_syscall.md R133) -/

/-- `sp <- v` (R11). -/
def State.setSp (s : State) (v : Word) : State := { s with sp := v }

/-- `Emit(b)` for each byte in order: bytes are appended to `out` and never removed or reordered (R133). -/
def State.emit (s : State) (bs : List Byte) : State := { s with out := s.out ++ bs }

/-! ### Placing one word where the next fetch reads it -/

/-- Puts `w` at `pc` in the code array. Where `pc` is not a code address (`pc >= CODE_SIZE`, where no word can be
fetched at all), `pc` is taken back to the entry point 0 first (log entry 22). -/
def State.placeAtPc (s : State) (w : Word) : State :=
  let pc := if s.pc.toNat < s.codeSize then s.pc else 0
  match s.cfg.layout with
  | .unified => { s with pc := pc, mem := s.mem.write pc.toNat w }
  | .split => { s with pc := pc, code := if s.code = [] then [w] else s.code.set pc.toNat w }

end Sys2Proof.Machine
end

