-- ==== Sys2Proof/Machine/Operands.lean ====
section
/-! DEFINITION. The operand forms of 30_encoding.md R66 and R67, and the implicit stack slot of 44_stack_jump.md R141. -/

namespace Sys2Proof.Machine

/-- `RegIdx(k)` (10_state.md R23): a field used as a register index must be 0..3. -/
def regIdx (k : Nibble) : Except Fault RegIndex :=
  if h : k.toNat < 4 then .ok ⟨k.toNat, h⟩ else raise (.regIndexOutOfRange k)

/-- `zext_16(imm)` (R67): LOADI's value and JUMP's target. -/
def zext16 (imm : Byte) : Word := imm.setWidth 16

/-- The shift amount (R67): the 4-bit field itself, 0..15, not a register (D20; log entry 11). -/
def shiftCount (r3 : Nibble) : Nat := r3.toNat

/-- The slot a push writes, `256 - (sp + 1)` (R141, R142; `push_addr` of R147, valid when `sp <= 255`). At `sp = 256` it
is 0, a value the model chose and no step uses (DESIGN CHOICE, log entry 24; above 256, log entry 18). -/
def pushSlot (sp : Word) : Byte := BitVec.ofNat 8 (256 - (sp.toNat + 1))

/-- The top slot, `256 - sp` (R141, R143; `pop_addr` of R147, valid when `1 <= sp`). At `sp = 0` it is 0, a value the
model chose and no step uses (DESIGN CHOICE, log entry 24; above 256, log entry 18). -/
def topSlot (sp : Word) : Byte := BitVec.ofNat 8 (256 - sp.toNat)

/-- `StackPopValue()` (44_stack_jump.md R144): the popped word, and the state with the stack one word shorter. -/
def popValue (s : State) : Except Fault (Word × State) :=
  if s.sp = 0 then raise .stackUnderflow
  else .ok (s.memRead (topSlot s.sp), s.setSp (s.sp - 1))

/-- Where syscall 0 finds its string address (43_syscall.md R131): popped from the stack, or register 0. -/
def stringAddr (s : State) : Except Fault (Word × State) :=
  match s.cfg.stack with
  | .present => popValue s
  | .absent => .ok (s.readReg 0, s)

end Sys2Proof.Machine
end

