-- ==== Sys2Proof/Machine/Alu.lean ====
section
/-! DEFINITION. LOADI, ADD, SHR, SHL (41_alu.md R100 to R103) over the ALU block (R106). Every register is read before
the one register is written (10_state.md R24), and no flag is written (R29). -/

namespace Sys2Proof.Machine

/-- The ALU's operations (R106). -/
inductive AluOp where
  | add
  | shr
  | shl
  deriving DecidableEq, Repr

/-- The ALU block (R106): integer arithmetic on unsigned values, reduced mod 2^16 (R10, R104). -/
def alu (op : AluOp) (a b : Word) (n : Nibble) : Word :=
  match op with
  | .add => BitVec.ofNat 16 (a.toNat + b.toNat)
  | .shr => BitVec.ofNat 16 (a.toNat / 2 ^ shiftCount n)
  | .shl => BitVec.ofNat 16 (a.toNat * 2 ^ shiftCount n)

/-- LOADI (R100). -/
def execLoadi (r1 : Nibble) (imm : Byte) (s : State) : StepOutcome :=
  complete do
    let d ← regIdx r1
    .ok (s.writeReg d (zext16 imm))

/-- ADD (R101): fields checked in the order r1, r2, r3. -/
def execAdd (r1 r2 r3 : Nibble) (s : State) : StepOutcome :=
  complete do
    let d ← regIdx r1
    let a ← regIdx r2
    let b ← regIdx r3
    .ok (s.writeReg d (alu .add (s.readReg a) (s.readReg b) 0))

/-- SHR (R102): logical; `r3` is the count and is not checked. -/
def execShr (r1 r2 r3 : Nibble) (s : State) : StepOutcome :=
  complete do
    let d ← regIdx r1
    let a ← regIdx r2
    .ok (s.writeReg d (alu .shr (s.readReg a) 0 r3))

/-- SHL (R103): bits shifted past bit 15 are lost; `r3` is the count and is not checked. -/
def execShl (r1 r2 r3 : Nibble) (s : State) : StepOutcome :=
  complete do
    let d ← regIdx r1
    let a ← regIdx r2
    .ok (s.writeReg d (alu .shl (s.readReg a) 0 r3))

end Sys2Proof.Machine
end

