-- ==== Sys2Proof/Machine/Flags.lean ====
section
/-! DEFINITION. "The running flag is the only flag" (10_state.md R28). There is no carry, zero, sign, overflow or other
condition code, and no instruction writes one as a side effect (R29), so no flag computation exists. -/

namespace Sys2Proof.Machine

/-- `running <- false` (R11): HALT's write, the only write of the flag (R28). -/
def State.clearRunning (s : State) : State := { s with running := false }

end Sys2Proof.Machine
end

