-- ==== Sys2Proof/Machine/Engine.lean ====
section
/-! DEFINITION. The engine's own instructions (40_engine.md R85, R86, R87). A meaning is the opcode body `Execute(f)`:
the PC advance has already happened (R82, R83). -/

namespace Sys2Proof.Machine

/-- NOP (R85): `skip`. -/
def execNop (s : State) : StepOutcome := .next s

/-- UNASSIGNED (R86), opcodes 12 to 15: `skip`. Silent, not signalled. -/
def execUnassigned (s : State) : StepOutcome := .next s

/-- HALT (R87): `running <- false`. -/
def execHalt (s : State) : StepOutcome := .next s.clearRunning

end Sys2Proof.Machine
end

