-- ==== Sys2Proof/Machine/LoadStore.lean ====
section
/-! DEFINITION. LOAD and STORE (42_load_store.md R120, R121): absolute 8-bit word address, a full 16-bit word. -/

namespace Sys2Proof.Machine

/-- LOAD (R120). -/
def execLoad (r1 : Nibble) (imm : Byte) (s : State) : StepOutcome :=
  complete do
    let d ← regIdx r1
    .ok (s.writeReg d (s.memRead imm))

/-- STORE (R121). -/
def execStore (r1 : Nibble) (imm : Byte) (s : State) : StepOutcome :=
  complete do
    let a ← regIdx r1
    .ok (s.memWrite imm (s.readReg a))

end Sys2Proof.Machine
end

