-- ==== Sys2Proof/Machine/StackJump.lean ====
section
/-! DEFINITION. PUSH, POP and JUMP (44_stack_jump.md R142 to R145). The dispatcher gives them these effects when
`STACK = Present` and treats the same opcodes as unassigned no-ops when `STACK = Absent` (40_engine.md R84, R86). -/

namespace Sys2Proof.Machine

/-- PUSH (R142); R86 with `STACK = Absent`. -/
def execPush (r1 : Nibble) (s : State) : StepOutcome :=
  match s.cfg.stack with
  | .absent => .next s
  | .present =>
    complete do
      let a ← regIdx r1
      if s.sp = 256 then raise .stackOverflow
      else .ok ((s.setSp (s.sp + 1)).memWrite (pushSlot s.sp) (s.readReg a))

/-- POP (R143); R86 with `STACK = Absent`. The popped slot keeps its word. -/
def execPop (r1 : Nibble) (s : State) : StepOutcome :=
  match s.cfg.stack with
  | .absent => .next s
  | .present =>
    complete do
      let d ← regIdx r1
      let (v, t) ← popValue s
      .ok (t.writeReg d v)

/-- JUMP (R145): absolute, after the PC advance, which it overrides; R86 with `STACK = Absent`. -/
def execJump (imm : Byte) (s : State) : StepOutcome :=
  match s.cfg.stack with
  | .absent => .next s
  | .present => .next (s.setPc (zext16 imm))

end Sys2Proof.Machine
end

