-- ==== Sys2Proof/Machine/Syscall.lean ====
section
/-! DEFINITION. SYSCALL (43_syscall.md R130) and print string (R131 to R136). -/

namespace Sys2Proof.Machine

/-- The byte emitted first: `w & 0xFF` (R132). -/
def lowByte (w : Word) : Byte := w.extractLsb' 0 8

/-- The byte emitted second: `(w >> 8) & 0xFF` (R132). -/
def highByte (w : Word) : Byte := w.extractLsb' 8 8

/-- The byte view of memory (R132): byte `j` of the little-endian byte stream that starts at word `a`. -/
def streamByte (m : Memory) (a j : Nat) : Byte :=
  if j % 2 = 0 then lowByte (m.read (a + j / 2)) else highByte (m.read (a + j / 2))

/-- The scan loop of `PrintString` (R134) over the `n` words from address `a` on: the bytes before the first zero byte,
or none where those words hold no zero byte. The word holding the terminator is the last one read. -/
def scanString (m : Memory) : Nat → Nat → Option (List Byte)
  | 0, _ => none
  | n + 1, a =>
    let w := m.read a
    if lowByte w = 0 then some []
    else if highByte w = 0 then some [lowByte w]
    else (scanString m n (a + 1)).map fun bs => lowByte w :: highByte w :: bs

/-- `PrintString()` (R134): the address (and the pop), its range, the scan to the end of `M`, then the output, all in one
step: where the scan faults, nothing has happened, the pop included (R135, R136). -/
def printString (s : State) : Except Fault State := do
  let (addr, t) ← stringAddr s
  if 255 < addr.toNat then raise (.syscallAddrOutOfRange addr)
  else
    match scanString t.mem (256 - addr.toNat) addr.toNat with
    | none => raise (.stringUnterminated addr)
    | some bs => .ok (t.emit bs)

/-- SYSCALL (R130): number 0 prints a string, every other number does nothing (D8; log entry 10). -/
def execSyscall (imm : Byte) (s : State) : StepOutcome :=
  if imm = 0 then complete (printString s) else .next s

end Sys2Proof.Machine
end

