-- ==== Sys2Proof/Machine/Dispatch.lean ====
section
/-! DEFINITION. Dispatch (40_engine.md R84): one arm per operation, each one call of its meaning. The choice by `STACK`
for opcodes 9, 10 and 11 stands in the meanings of push, pop and jump. -/

namespace Sys2Proof.Machine

def exec (i : Instr) (s : State) : Host.Outcome State Fault Refusal :=
  match i with
  | .nop _ _ => Sys2Proof.Machine.execNop s
  | .loadi r1 imm => Sys2Proof.Machine.execLoadi r1 imm s
  | .add r1 r2 r3 => Sys2Proof.Machine.execAdd r1 r2 r3 s
  | .shr r1 r2 r3 => Sys2Proof.Machine.execShr r1 r2 r3 s
  | .load r1 imm => Sys2Proof.Machine.execLoad r1 imm s
  | .store r1 imm => Sys2Proof.Machine.execStore r1 imm s
  | .syscall _ imm => Sys2Proof.Machine.execSyscall imm s
  | .shl r1 r2 r3 => Sys2Proof.Machine.execShl r1 r2 r3 s
  | .halt _ _ => Sys2Proof.Machine.execHalt s
  | .push r1 _ => Sys2Proof.Machine.execPush r1 s
  | .pop r1 _ => Sys2Proof.Machine.execPop r1 s
  | .jump _ imm => Sys2Proof.Machine.execJump imm s
  | .unassigned _ _ _ => Sys2Proof.Machine.execUnassigned s

end Sys2Proof.Machine
end

