-- ==== Sys2Proof/Machine/Step.lean ====
section
/-! DEFINITION. One step of an instance (40_engine.md R81, R82). -/

namespace Sys2Proof.Machine

/-- `Step()` (R82): fetch at `pc`, decode, advance `pc`, execute. A Halted instance has no step and every part of its
state keeps its value for good (R81): the step function answers the unchanged state (DESIGN CHOICE, log entry 3). -/
def step (s : State) : Host.Outcome State Fault Refusal :=
  if s.running then
    match s.fetch s.pc with
    | .error r => .fault r
    | .ok w => exec (decode w) s.advancePc
  else .next s

/-- `s` with the instruction of bits `w` where the next step fetches, running, so that `step` runs exactly it. It stands
for the program load of construction (70_reset_and_hazards.md R180, R181; log entries 2 and 22). A word that
`tableWords` refuses changes nothing. -/
def State.withFetchWord (s : State) (nbits w : Nat) : State :=
  match tableWords nbits w with
  | .ok [word] => { s.placeAtPc word with running := true }
  | _ => s

end Sys2Proof.Machine
end

