-- ==== Sys2Proof/Machine/Blocks.lean ====
section
/-! DEFINITION. The machine a second time, as the blocks of 00_scope.md R2 with the ports the spec gives them (D12), and
their composition as one clocked step. It is written from the block tables (10_state.md R25, 20_memory.md R58,
40_engine.md R89 and R90, 41_alu.md R106, 43_syscall.md R136, 44_stack_jump.md R147) and from the tables of 10_state.md
R22 and 60_exceptions.md R163, not from the meanings of the instructions, so that the two can be held against each other
(log entry 21). The decoder block's outputs are `Fields` (30_encoding.md R65) and the ALU block is `alu`. -/

namespace Sys2Proof.Machine

/-! ### register_file (R25) -/

/-- A read port. The index ports carry the low two bits of a field (R25). -/
def regPort (r : RegFile) (idx : BitVec 2) : Word := r.get idx.toFin

/-- The register file after a step. -/
def regNext (rst we : Bool) (wIdx : BitVec 2) (wData : Word) (r : RegFile) : RegFile :=
  if rst then ⟨0, 0, 0, 0⟩ else if we then r.set wIdx.toFin wData else r

/-- The low two bits of a register field, as the 2-bit index ports take them (R25). -/
def idxPort (k : Nibble) : BitVec 2 := k.extractLsb' 0 2

/-! ### memory controller (R58) -/

/-- `f_oor`: 1 when `f_addr >= CODE_SIZE`. -/
def fetchOor (s : State) (addr : Word) : Bool := decide (s.codeSize ≤ addr.toNat)

/-- `f_data`: `f_*` reaches `M` in `Unified` and `C` only in `Split`. R58 gives it a meaning when `f_oor = 0`; otherwise it
is 0, a value the model chose and no step uses (DESIGN CHOICE, log entry 24). -/
def fetchData (s : State) (addr : Word) : Word :=
  match s.cfg.layout with
  | .unified => s.mem.read addr.toNat
  | .split => s.code.getD addr.toNat 0

/-- `d_rdata`: `d_*` reaches `M` only. -/
def dataPort (m : Memory) (addr : Byte) : Word := m.read addr.toNat

/-- `M` after a step. -/
def memNext (we : Bool) (addr : Byte) (data : Word) (m : Memory) : Memory :=
  if we then m.write addr.toNat data else m

/-! ### pc_sequencer (R89) -/

/-- `pc_next`: JUMP's target replaces the increment; nothing moves unless the step commits (`stepCommit` below drives
the port). -/
def pcNext (rst stepCommit jumpEn : Bool) (jumpTarget : Byte) (pc : Word) : Word :=
  if rst then 0
  else if stepCommit then (if jumpEn then zext16 jumpTarget else pc + 1)
  else pc

/-! ### stack_pointer (R147) -/

/-- `sp` after a step. -/
def spNext (rst push pop : Bool) (sp : Word) : Word :=
  if rst then 0 else if push then sp + 1 else if pop then sp - 1 else sp

/-- `full`: a push would fault. -/
def stackFull (sp : Word) : Bool := decide (sp = 256)

/-- `empty`: a pop would fault. -/
def stackEmpty (sp : Word) : Bool := decide (sp = 0)

/-! ### execution_dispatch_engine (R90) -/

/-- What drives the register write port `w_data`. -/
inductive WriteSel where
  | immediate
  | alu
  | memory
  deriving DecidableEq, Repr

/-- What drives the data address port `d_addr`. -/
inductive AddrSel where
  | immediate
  | push
  | pop
  deriving DecidableEq, Repr

/-- The control signals of R90; an enable left at its default is the table's "-". What a select holds beside an inactive
enable is the model's choice, and nothing uses it (DESIGN CHOICE, log entry 24). -/
structure Control where
  we : Bool := false
  wSel : WriteSel := .immediate
  aluOp : AluOp := .add
  dAddr : AddrSel := .immediate
  dWe : Bool := false
  push : Bool := false
  pop : Bool := false
  jumpEn : Bool := false
  halt : Bool := false
  print : Bool := false
  deriving DecidableEq, Repr

/-- The table of R90, row by row. -/
def controlOf (stack : StackOption) (f : Fields) : Control :=
  match f.opcode.toNat, stack with
  | 1, _ => { we := true, wSel := .immediate }
  | 2, _ => { we := true, wSel := .alu, aluOp := .add }
  | 3, _ => { we := true, wSel := .alu, aluOp := .shr }
  | 4, _ => { we := true, wSel := .memory, dAddr := .immediate }
  | 5, _ => { dAddr := .immediate, dWe := true }
  | 6, .present => if f.imm = 0 then { dAddr := .pop, pop := true, print := true } else { }
  | 6, .absent => if f.imm = 0 then { print := true } else { }
  | 7, _ => { we := true, wSel := .alu, aluOp := .shl }
  | 8, _ => { halt := true }
  | 9, .present => { dAddr := .push, dWe := true, push := true }
  | 10, .present => { we := true, wSel := .memory, dAddr := .pop, pop := true }
  | 11, .present => { jumpEn := true }
  | _, _ => { }

/-- The fields an opcode uses as register indices, in the order they are checked (10_state.md R22, R23; R163 item 2). -/
def usedRegFields (stack : StackOption) (f : Fields) : List Nibble :=
  match f.opcode.toNat, stack with
  | 1, _ => [f.r1]
  | 2, _ => [f.r1, f.r2, f.r3]
  | 3, _ => [f.r1, f.r2]
  | 4, _ => [f.r1]
  | 5, _ => [f.r1]
  | 7, _ => [f.r1, f.r2]
  | 9, .present => [f.r1]
  | 10, .present => [f.r1]
  | _, _ => []

/-- `d_addr`. -/
def dataAddr (c : Control) (f : Fields) (sp : Word) : Byte :=
  match c.dAddr with
  | .immediate => f.imm
  | .push => pushSlot sp
  | .pop => topSlot sp

/-- The string address of syscall 0: the popped word, or register port C with index 0 (R25, R131). -/
def stringStart (s : State) : Word :=
  match s.cfg.stack with
  | .present => dataPort s.mem (topSlot s.sp)
  | .absent => regPort s.regs 0

/-- The scan of syscall 0 over the data memory (R134). -/
def scanFrom (m : Memory) (addr : Word) : Option (List Byte) := scanString m (256 - addr.toNat) addr.toNat

/-- The first of the conditions of R161 that holds after the fetch, in the order of R163. -/
def firstFault (s : State) (f : Fields) : Option Fault :=
  let c := controlOf s.cfg.stack f
  match (usedRegFields s.cfg.stack f).find? (fun k => !regFieldOk k) with
  | some k => some (.regIndexOutOfRange k)
  | none =>
    if c.push && stackFull s.sp then some .stackOverflow
    else if c.pop && stackEmpty s.sp then some .stackUnderflow
    else if c.print then
      if 255 < (stringStart s).toNat then some (.syscallAddrOutOfRange (stringStart s))
      else if (scanFrom s.mem (stringStart s)).isNone then some (.stringUnterminated (stringStart s))
      else none
    else none

/-- `w_data`. -/
def writeData (s : State) (c : Control) (f : Fields) : Word :=
  match c.wSel with
  | .immediate => zext16 f.imm
  | .alu => alu c.aluOp (regPort s.regs (idxPort f.r2)) (regPort s.regs (idxPort f.r3)) f.r3
  | .memory => dataPort s.mem (dataAddr c f s.sp)

/-- The reason the step raises, if it raises one: the fetch fault first, then the engine's (R163). A Halted instance has
no step: it fetches nothing and raises nothing (R81). -/
def stepFault (s : State) : Option Fault :=
  if s.running then
    if fetchOor s s.pc then some (.fetchOutOfRange s.pc) else firstFault s (fieldsOf (fetchData s s.pc))
  else none

/-- `step_commit` (R89): "1 when the step completes without a fault and `running` was `true` at its start". -/
def stepCommit (s : State) : Bool := s.running && (stepFault s).isNone

/-- The decoder's outputs for the word at `pc` (R65). -/
def fetchedFields (s : State) : Fields := fieldsOf (fetchData s s.pc)

/-- The engine's outputs in this clock: the row of R90, with every write suppressed unless the step commits (R90). -/
def signals (s : State) : Control := if stepCommit s then controlOf s.cfg.stack (fetchedFields s) else { }

/-! ### output port (R136) -/

/-- The output port: the bytes still to be offered, and the stream of bytes the host has accepted. -/
structure OutPort where
  pending : List Byte
  accepted : List Byte
  deriving DecidableEq, Repr

/-- `out_valid`: a byte is offered. -/
def OutPort.valid (p : OutPort) : Bool := !p.pending.isEmpty

/-- `out_byte`: the byte offered, the first of the pending ones; meaningful when `out_valid = 1`. -/
def OutPort.byte (p : OutPort) : Option Byte := p.pending.head?

/-- One clock: a byte is emitted when `out_valid & out_ready`. -/
def OutPort.tick (p : OutPort) (ready : Bool) : OutPort :=
  if p.valid && ready then ⟨p.pending.tail, p.accepted ++ p.byte.toList⟩ else p

/-- The clocks of a run of `out_ready` values. -/
def OutPort.ticks (p : OutPort) (ready : List Bool) : OutPort := ready.foldl OutPort.tick p

/-- The stream once the host has accepted every byte (60_exceptions.md R171: it must). -/
def OutPort.drained (p : OutPort) : List Byte := p.accepted ++ p.pending

/-- The bytes the engine hands to the port in this clock: syscall 0's, in the order of R134, and none in any other step
and in a step that faults. -/
def outBytes (s : State) : List Byte := if (signals s).print then (scanFrom s.mem (stringStart s)).getD [] else []

/-- The port as the step of `s` loads it. -/
def outPort (s : State) : OutPort := ⟨outBytes s, s.out⟩

/-! ### The composed blocks -/

/-- Every block's next value at the end of a clock; where the step does not commit, every one is unchanged. The bytes of
syscall 0 "appear in `out` together and in order" (R136). -/
def clock (s : State) : State :=
  let f := fetchedFields s
  let c := signals s
  { s with
    regs := regNext false c.we (idxPort f.r1) (writeData s c f) s.regs
    pc := pcNext false (stepCommit s) c.jumpEn f.imm s.pc
    sp := spNext false c.push c.pop s.sp
    running := s.running && !c.halt
    mem := memNext c.dWe (dataAddr c f s.sp) (regPort s.regs (idxPort f.r1)) s.mem
    out := (outPort s).drained }

/-- One step of the composed blocks: the fault raised, or the blocks after the clock. -/
def blockStep (s : State) : Host.Outcome State Fault Refusal :=
  match stepFault s with
  | some r => .fault r
  | none => .next (clock s)

/-! ### The hardware with its output port over several cycles (R136) -/

/-- The blocks together with the bytes of a syscall 0 that the host has not accepted yet; `core.out` holds the accepted
ones. -/
structure Hardware where
  core : State
  pending : List Byte
  deriving DecidableEq, Repr

/-- The output port of the hardware. -/
def Hardware.port (h : Hardware) : OutPort := ⟨h.pending, h.core.out⟩

/-- The architectural state the hardware stands for: all of the syscall's bytes are in `out`. -/
def Hardware.architectural (h : Hardware) : State := { h.core with out := h.port.drained }

/-- One clock of the hardware: while a byte is pending the port alone moves, and "it must not start the next instruction
until the last byte has been accepted"; else one step, which loads the port and emits nothing where it faults. -/
def Hardware.clock (h : Hardware) (ready : Bool) : Host.Outcome Hardware Fault Refusal :=
  if h.port.valid then
    .next ⟨{ h.core with out := (h.port.tick ready).accepted }, (h.port.tick ready).pending⟩
  else
    match stepFault h.core with
    | some r => .fault r
    | none => .next ⟨{ Machine.clock h.core with out := h.core.out }, outBytes h.core⟩

end Sys2Proof.Machine
end

