-- ==== Sys2Proof/Machine/Construct.lean ====
section
/-! DEFINITION. Construction, the only reset (70_reset_and_hazards.md R180 to R184), and the hardware form of it: `rst` on
every block and then the program load through the memory controller's `ld_*` port (20_memory.md R58). -/

namespace Sys2Proof.Machine

/-- `M` right after construction (R42, R43, R181). -/
def initialMemory (layout : Layout) (program : List Word) : Memory :=
  match layout with
  | .unified => Memory.ofWords 0 program
  | .split => []

/-- `C` right after construction (R43, R181); it does not exist in `Unified`. -/
def initialCode (layout : Layout) (program : List Word) : List Word :=
  match layout with
  | .unified => []
  | .split => program

/-- `Construct(P, LAYOUT, STACK)` (R181). A program that does not fit is refused (R182; D5, D6). -/
def construct (program : List Word) (cfg : Config) : Except Refusal State :=
  if program.length ≤ Config.maxProgramWords cfg.layout then
    .ok { cfg := cfg, regs := ⟨0, 0, 0, 0⟩, pc := 0, sp := 0, running := true,
          mem := initialMemory cfg.layout program, code := initialCode cfg.layout program, out := [] }
  else .error (.programTooLong program.length)

/-- The instance with `rst` asserted (R180), for a program of `words` words: every register 0, running, nothing emitted.
That `rst` also clears `M`, and that the words of `C` are 0 until the load port writes them, is the model's choice: R58
gives the memory controller no `rst` port, and no rule gives the words of `C` before the load (DESIGN CHOICE, log
entry 25). -/
def rstState (cfg : Config) (words : Nat) : State where
  cfg := cfg
  regs := ⟨0, 0, 0, 0⟩
  pc := 0
  sp := 0
  running := true
  mem := []
  code := match cfg.layout with
    | .unified => []
    | .split => List.replicate words 0
  out := []

/-- One clock of the load port with `ld_en = 1` (R58): it writes `M` in `Unified` and `C` in `Split`. -/
def State.loadPort (s : State) (addr data : Word) : State :=
  if addr.toNat < s.codeSize then
    match s.cfg.layout with
    | .unified => { s with mem := s.mem.write addr.toNat data }
    | .split => { s with code := s.code.set addr.toNat data }
  else s

/-- The program load of construction: word `i` of the list at code address `a + i`. -/
def State.loadFrom (s : State) (a : Nat) : List Word → State
  | [] => s
  | w :: ws => (s.loadPort (BitVec.ofNat 16 a) w).loadFrom (a + 1) ws

end Sys2Proof.Machine
end

