-- ==== Sys2Proof/Machine/HostControl.lean ====
section
/-! DEFINITION. What the host can do with a constructed instance (60_exceptions.md R170, R171): drive steps under a
budget, and inspect. Neither writes core state, and neither is an interrupt (R164). -/

namespace Sys2Proof.Machine

/-- How a budgeted drive ends (R170: a run stopped by the budget is neither Halted nor faulted). -/
inductive RunResult where
  /-- The instance is Halted: the final state of the run (R81). -/
  | halted (s : State)
  /-- The step from `s` faulted: the pre-step state together with the reason, and no step follows (R162). -/
  | faulted (s : State) (r : Fault)
  /-- The budget is spent and the instance is still Running. -/
  | budgetSpent (s : State)
  /-- A step refused; no step of this machine does (00_scope.md R12). -/
  | refused (s : State) (r : Refusal)
  deriving DecidableEq, Repr

/-- At most `n` steps of a Running instance (R170). -/
def runBudget : Nat → State → RunResult
  | 0, s => if s.running then .budgetSpent s else .halted s
  | n + 1, s =>
    if s.running then
      match step s with
      | .next t => runBudget n t
      | .fault r => .faulted s r
      | .refused r => .refused s r
    else .halted s

/-- The state the host finds after a drive (R171 Inspect). -/
def RunResult.state : RunResult → State
  | .halted s => s
  | .faulted s _ => s
  | .budgetSpent s => s
  | .refused s _ => s

/-- Going on with a further budget after a drive: only a Running instance that has not faulted takes more steps. -/
def RunResult.more (n : Nat) : RunResult → RunResult
  | .budgetSpent s => runBudget n s
  | .halted s => .halted s
  | .faulted s r => .faulted s r
  | .refused s r => .refused s r

/-- What Inspect shows (R171, D19). `sp` exists only with `STACK = Present`. -/
structure Inspection where
  x : List Word
  words : List Word
  pc : Word
  sp : Option Word
  running : Bool
  out : List Byte
  fault : Option Fault
  deriving DecidableEq, Repr

/-- Inspect after a drive (R171): it reads and changes nothing. -/
def RunResult.inspect (r : RunResult) : Inspection where
  x := [r.state.readReg 0, r.state.readReg 1, r.state.readReg 2, r.state.readReg 3]
  words := (List.range 256).map fun a => r.state.mem.read a
  pc := r.state.pc
  sp := match r.state.cfg.stack with
    | .present => some r.state.sp
    | .absent => none
  running := r.state.running
  out := r.state.out
  fault := match r with
    | .faulted _ f => some f
    | .halted _ => none
    | .budgetSpent _ => none
    | .refused _ _ => none

end Sys2Proof.Machine
end

