-- ==== Sys2Proof/Safety.lean ====
section
/-! DEFINITION. The invariant of the states an instance can be in, and what a claim about a run means: a faulted run is
not a halted one (60_exceptions.md R162), and a run that never halts is neither (40_engine.md R88). -/

namespace Sys2Proof.Machine

/-- The facts that hold of every state from construction on:
memory is in canonical form inside 0..255 (20_memory.md R40);
`sp` counts 0..256 words (10_state.md R30);
what does not exist in this configuration stays as construction left it (R20; log entry 4);
`C` is no longer than construction accepts (20_memory.md R43);
`pc` is at most `CODE_SIZE` (10_state.md R27), but for the one faulted state that 44_stack_jump.md R145 makes: a Running
`Split` instance with a stack, right after a JUMP to a target of at most 255 beyond its code (log entry 14). -/
abbrev State.Inv (s : State) : Prop :=
  s.mem.wf = true ∧
  s.sp.toNat ≤ 256 ∧
  (s.cfg.stack = .absent → s.sp = 0) ∧
  (s.cfg.layout = .unified → s.code = []) ∧
  s.code.length ≤ Config.maxSplitWords ∧
  (s.pc.toNat ≤ s.codeSize ∨ s.cfg = ⟨.split, .present⟩ ∧ s.running = true ∧ s.pc.toNat ≤ 255)

/-- A state in which no fault stands, in 10_state.md R27's words a "non-faulted state". A faulted state is "the pre-step
state together with the fault reason" (60_exceptions.md R162), so it is a state whose step faults (DEDUCED, log entry 14). -/
abbrev State.NonFaulted (s : State) : Prop := ∀ r, step s ≠ .fault r

/-- The run from `s` ends Halted in `t` (R81, R88). -/
def HaltsIn (s t : State) : Prop := ∃ n, runBudget n s = .halted t

/-- The run from `s` ends in the model fault `r`, leaving the pre-step state `t` (R161, R162). -/
def FaultsIn (s t : State) (r : Fault) : Prop := ∃ n, runBudget n s = .faulted t r

/-- No step of the run from `s` faults, for as long as it goes on. -/
def NeverFaults (s : State) : Prop := ∀ n t r, runBudget n s ≠ .faulted t r

end Sys2Proof.Machine
end

