-- ==== Sys2Proof/Certificates/Slice0/Obligations.lean ====
section
/-! DEFINITION. The statements about the cvm CORE that the provers are asked to settle. Each docstring names the rule or
the sections it rests on; where a clause rests on a decision of 92_eei_decisions.md or on a log entry of the model, the
docstring says so. -/

namespace Sys2Proof.Claims

open Sys2Proof.Machine

/-- No general register differs. -/
abbrev RegsSame (s t : State) : Prop := ∀ k : RegIndex, t.readReg k = s.readReg k

/-- No word of `M` differs. -/
abbrev MemSame (s t : State) : Prop := ∀ a : Byte, t.memRead a = s.memRead a

/-- `pc`, `sp`, `running`, `out`, the configuration and the code array do not differ. -/
abbrev ControlSame (s t : State) : Prop :=
  t.pc = s.pc ∧ t.sp = s.sp ∧ t.running = s.running ∧ t.out = s.out ∧ t.cfg = s.cfg ∧ t.code = s.code

/-- Register `d` holds the number `v` and nothing else differs: no other register, no word of memory, no `pc`, `sp`,
`running`, output byte, configuration or code word. -/
abbrev OnlyRegister (d : RegIndex) (v : Nat) (s t : State) : Prop :=
  (t.readReg d).toNat = v ∧ (∀ k, k ≠ d → t.readReg k = s.readReg k) ∧ MemSame s t ∧ ControlSame s t

/-- `k` is the index of the first zero byte of the byte stream that starts at word `a` and ends with word 255. -/
abbrev FirstZeroByte (m : Memory) (a k : Nat) : Prop :=
  k < 2 * (256 - a) ∧ streamByte m a k = 0 ∧ ∀ j < k, streamByte m a j ≠ 0

/-- The bytes of the stream before index `k`. -/
abbrev streamUpTo (m : Memory) (a k : Nat) : List Byte := (List.range k).map (streamByte m a)

/-- `t` is `s` with `k` stream bytes from word `a` appended to `out`, and no other difference but the stack pointer's. -/
abbrev OnlyOutputAndSp (m : Memory) (a k : Nat) (sp : Nat) (s t : State) : Prop :=
  t.out = s.out ++ streamUpTo m a k ∧ t.sp.toNat = sp ∧ RegsSame s t ∧ MemSame s t ∧ t.pc = s.pc ∧
    t.running = s.running ∧ t.cfg = s.cfg ∧ t.code = s.code

/-- The fields an instruction uses as register indices, in the order r1, r2, r3 (10_state.md R22, R23): PUSH's and POP's
only with `STACK = Present`, and never the count `r3` of a shift. -/
abbrev registerFields (stack : StackOption) : Instr → List Nibble
  | .loadi r1 _ => [r1]
  | .add r1 r2 r3 => [r1, r2, r3]
  | .shr r1 r2 _ => [r1, r2]
  | .load r1 _ => [r1]
  | .store r1 _ => [r1]
  | .shl r1 r2 _ => [r1, r2]
  | .push r1 _ => if stack = .present then [r1] else []
  | .pop r1 _ => if stack = .present then [r1] else []
  | .nop _ _ => []
  | .syscall _ _ => []
  | .halt _ _ => []
  | .jump _ _ => []
  | .unassigned _ _ _ => []

/-- `a` is the string address of syscall 0 in `s` (43_syscall.md R131): `x[0]`, or the top word of a stack that is not
empty. -/
abbrev IsStringAddress (s : State) (a : Word) : Prop :=
  s.cfg.stack = .absent ∧ a = s.readReg 0 ∨ s.cfg.stack = .present ∧ s.sp ≠ 0 ∧ a = s.memRead (topSlot s.sp)

end Sys2Proof.Claims

open Sys2Proof Sys2Proof.Machine Sys2Proof.Claims

/-! ### Encoding and decoding (30_encoding.md) -/

/-- 30_encoding.md R63, one direction, for every instruction with every operand at every value: decoding an encoded
instruction gives it back, and a stream is left exactly one word shorter (R60). -/
def Obligations.DecodeOfEncodeIsTheInstruction : Prop :=
  ∀ (i : Instr) (rest : List Word),
    decode (encode i) = i ∧ decodeWords (encodeWords i ++ rest) = .ok (i, rest)

/-- R63 whole: the two forms of `Encode` as numbers, and "for all 16-bit words `w`, decoding then re-encoding the four
fields reproduces `w` exactly; `imm` always equals `(r2<<4)|r3`", for the fields and for whole instructions. -/
def Obligations.EncodeOfDecodeIsTheWord : Prop :=
  (∀ op r1 r2 r3 : Nibble,
    (encodeR op r1 r2 r3).toNat = op.toNat * 4096 + r1.toNat * 256 + r2.toNat * 16 + r3.toNat ∧
    fieldsOf (encodeR op r1 r2 r3) = ⟨op, r1, r2, r3, r2 ++ r3⟩) ∧
  (∀ (op r1 : Nibble) (imm : Byte),
    (encodeI op r1 imm).toNat = op.toNat * 4096 + r1.toNat * 256 + imm.toNat ∧
    (fieldsOf (encodeI op r1 imm)).opcode = op ∧ (fieldsOf (encodeI op r1 imm)).r1 = r1 ∧
    (fieldsOf (encodeI op r1 imm)).imm = imm) ∧
  (∀ w : Word,
    encodeR (fieldsOf w).opcode (fieldsOf w).r1 (fieldsOf w).r2 (fieldsOf w).r3 = w ∧
    encodeI (fieldsOf w).opcode (fieldsOf w).r1 (fieldsOf w).imm = w ∧
    (fieldsOf w).imm = ((fieldsOf w).r2.setWidth 8 <<< 4) ||| (fieldsOf w).r3.setWidth 8 ∧
    encode (decode w) = w)

/-- R62: `imm` and `r2`/`r3` are two views of the same bits. -/
def Obligations.ImmIsTheViewOfR2AndR3 : Prop :=
  ∀ w : Word,
    (fieldsOf w).imm.toNat = (fieldsOf w).r2.toNat * 16 + (fieldsOf w).r3.toNat ∧
    (fieldsOf w).r2.toNat = (fieldsOf w).imm.toNat / 16 ∧
    (fieldsOf w).r3.toNat = (fieldsOf w).imm.toNat % 16

/-- R61: the fields are the bits 15-12, 11-8, 7-4, 3-0 and 7-0 of the word, as unsigned numbers. -/
def Obligations.FieldsAreTheBitsOfTheWord : Prop :=
  ∀ w : Word,
    (fieldsOf w).opcode.toNat = w.toNat / 4096 ∧
    (fieldsOf w).r1.toNat = w.toNat / 256 % 16 ∧
    (fieldsOf w).r2.toNat = w.toNat / 16 % 16 ∧
    (fieldsOf w).r3.toNat = w.toNat % 16 ∧
    (fieldsOf w).imm.toNat = w.toNat % 256

/-- R68: the opcode alone selects the operation, and it is bits 15-12 of the word. -/
def Obligations.OpcodeAloneSelectsTheOperation : Prop :=
  ∀ w : Word, (decode w).opcode.toNat = w.toNat / 4096

/-- Words of the V-DEC table of 95_test_vectors.md, one of each family at least, decode to what the table names. -/
def Obligations.SpecWordsDecodeAsListed : Prop :=
  decode 0x0000 = .nop 0 0x00 ∧ decode 0x1234 = .loadi 2 0x34 ∧ decode 0x2145 = .add 1 4 5 ∧
  decode 0x3019 = .shr 0 1 9 ∧ decode 0x4340 = .load 3 0x40 ∧ decode 0x5140 = .store 1 0x40 ∧
  decode 0x6F00 = .syscall 15 0x00 ∧ decode 0x7045 = .shl 0 4 5 ∧ decode 0x8123 = .halt 1 0x23 ∧
  decode 0x9200 = .push 2 0x00 ∧ decode 0xA5C3 = .pop 5 0xC3 ∧ decode 0xB003 = .jump 0 0x03 ∧
  decode 0xC000 = .unassigned 0 0 0x00 ∧ decode 0xFFFF = .unassigned 3 15 0xFF

/-- R71: a field that R66 marks "ignored" may hold any value without effect. -/
def Obligations.IgnoredFieldsHaveNoEffect : Prop :=
  ∀ (s : State) (r q : Nibble) (x y : Byte) (p l : BitVec 2) (k : Nibble) (v : Byte),
    exec (.nop r x) s = exec (.nop q y) s ∧
    exec (.syscall r v) s = exec (.syscall q v) s ∧
    exec (.halt r x) s = exec (.halt q y) s ∧
    exec (.push k x) s = exec (.push k y) s ∧
    exec (.pop k x) s = exec (.pop k y) s ∧
    exec (.jump r v) s = exec (.jump q v) s ∧
    exec (.unassigned p r x) s = exec (.unassigned l q y) s

/-! ### The step (40_engine.md R81 to R83; 20_memory.md R44) -/

/-- R82, R83: a step of a Running instance whose fetch gives `w` is the body of `w`'s instruction, run in the state that
differs only in `pc`, which is one more. -/
def Obligations.StepRunsTheDecodedInstruction : Prop :=
  ∀ (s : State) (w : Word), s.running = true → s.fetch s.pc = .ok w →
    step s = exec (decode w) { s with pc := s.pc + 1 }

/-- Encoded instructions run: whatever instruction's word stands in `M` at `pc` in a Running `Unified` instance, the step
runs that instruction (R63, R82, 20_memory.md R41). -/
def Obligations.PlacedInstructionRuns : Prop :=
  ∀ (s : State) (i : Instr), s.running = true → s.cfg.layout = .unified → s.pc.toNat ≤ 255 →
    s.mem.read s.pc.toNat = encode i → step s = exec i { s with pc := s.pc + 1 }

/-- 20_memory.md R44, both layouts; the fault beyond the code is the spec's decision D4, D5 (log entry 7). -/
def Obligations.FetchReadsTheCodeArray : Prop :=
  ∀ (s : State) (a : Word),
    (s.cfg.layout = .unified → a.toNat ≤ 255 → s.fetch a = .ok (s.mem.read a.toNat)) ∧
    (s.cfg.layout = .unified → 256 ≤ a.toNat → s.fetch a = .error (.fetchOutOfRange a)) ∧
    (∀ w, s.cfg.layout = .split → s.code[a.toNat]? = some w → s.fetch a = .ok w) ∧
    (s.cfg.layout = .split → s.code.length ≤ a.toNat → s.fetch a = .error (.fetchOutOfRange a))

/-- A Running instance whose `pc` is no code address faults at the fetch (R44, R161; the fault is decision D4, D5). -/
def Obligations.StepBeyondTheCodeFaults : Prop :=
  ∀ s : State, s.running = true → s.codeSize ≤ s.pc.toNat → step s = .fault (.fetchOutOfRange s.pc)

/-- R81: every part of a Halted instance's state keeps its value for good, however often the host drives it. That the
step function answers the unchanged state, rather than nothing, is the model's choice (log entry 3). -/
def Obligations.HaltedInstanceKeepsItsState : Prop :=
  ∀ (n : Nat) (s : State), s.running = false →
    Host.Core.run Sys2Proof.core n s = .next s ∧ runBudget n s = .halted s

/-- 00_scope.md R12: no step refuses; a step completes or faults (decision D16). -/
def Obligations.NoStepRefuses : Prop :=
  ∀ (s : State) (r : Refusal), step s ≠ .refused r

/-- The step on NOP words (R85 whole): `match 0x0000, mask 0xF000`, the only change is the PC advance. The zero word that
stands above a `Unified` program is one of them. -/
def Obligations.NopOnlyAdvancesPc : Prop :=
  (∀ (s : State) (w : Word), s.running = true → s.fetch s.pc = .ok w → w &&& 0xF000 = 0x0000 →
    step s = .next { s with pc := s.pc + 1 }) ∧
  (∀ s : State, s.running = true → s.cfg.layout = .unified → s.pc.toNat ≤ 255 → s.mem.read s.pc.toNat = 0 →
    step s = .next { s with pc := s.pc + 1 }) ∧
  (∀ (s : State) (r1 : Nibble) (imm : Byte), exec (.nop r1 imm) s = .next s)

/-- The step on unassigned words (R86 whole): opcodes 12 to 15 (`match 0xC000, mask 0xC000`) in every configuration, and
9, 10 and 11 with `STACK = Absent`; the only change is the PC advance. -/
def Obligations.UnassignedOpcodesAreNoOps : Prop :=
  (∀ (s : State) (w : Word), s.running = true → s.fetch s.pc = .ok w →
    (w &&& 0xC000 = 0xC000 ∨
      s.cfg.stack = .absent ∧ (w &&& 0xF000 = 0x9000 ∨ w &&& 0xF000 = 0xA000 ∨ w &&& 0xF000 = 0xB000)) →
    step s = .next { s with pc := s.pc + 1 }) ∧
  (∀ (s : State) (low : BitVec 2) (r1 : Nibble) (imm : Byte), exec (.unassigned low r1 imm) s = .next s) ∧
  (∀ (s : State) (r1 : Nibble) (imm : Byte), s.cfg.stack = .absent →
    exec (.push r1 imm) s = .next s ∧ exec (.pop r1 imm) s = .next s ∧ exec (.jump r1 imm) s = .next s)

/-- The step on HALT words (R87): `match 0x8000, mask 0xF000`; `running` becomes false, `pc` is the HALT's address plus 1,
and nothing else changes. -/
def Obligations.HaltClearsRunning : Prop :=
  (∀ (s : State) (w : Word), s.running = true → s.fetch s.pc = .ok w → w &&& 0xF000 = 0x8000 →
    step s = .next { s with pc := s.pc + 1, running := false }) ∧
  (∀ (s : State) (r1 : Nibble) (imm : Byte), exec (.halt r1 imm) s = .next { s with running := false })

/-! ### Register and ALU instructions (41_alu.md) -/

/-- LOADI (R100): completes in every state when `r1` names a register; the register holds `imm` zero-extended, and
nothing else changes. -/
def Obligations.LoadiWritesTheImmediate : Prop :=
  ∀ (s : State) (r1 : Nibble) (imm : Byte) (d : RegIndex), r1.toNat = d.val →
    ∃ t, exec (.loadi r1 imm) s = .next t ∧ OnlyRegister d imm.toNat s t

/-- ADD (R101, R24): completes when the three fields name registers; the sum of the values before the instruction, mod
2^16, and nothing else changes. The destination may be a source. -/
def Obligations.AddWrapsModTwoToSixteen : Prop :=
  ∀ (s : State) (r1 r2 r3 : Nibble) (d a b : RegIndex), r1.toNat = d.val → r2.toNat = a.val → r3.toNat = b.val →
    ∃ t, exec (.add r1 r2 r3) s = .next t ∧
      OnlyRegister d (((s.readReg a).toNat + (s.readReg b).toNat) % 65536) s t

/-- SHR (R102, R104): floor division by `2^n`, `n` the literal field `r3` (decision D20, log entry 11); nothing else
changes. `r3` may hold any value. -/
def Obligations.ShrIsFloorDivision : Prop :=
  ∀ (s : State) (r1 r2 r3 : Nibble) (d a : RegIndex), r1.toNat = d.val → r2.toNat = a.val →
    ∃ t, exec (.shr r1 r2 r3) s = .next t ∧ OnlyRegister d ((s.readReg a).toNat / 2 ^ r3.toNat) s t

/-- SHL (R103, R104): multiplication by `2^n` mod 2^16, `n` the literal field `r3` (decision D20, log entry 11); nothing
else changes. -/
def Obligations.ShlIsMultiplicationModTwoToSixteen : Prop :=
  ∀ (s : State) (r1 r2 r3 : Nibble) (d a : RegIndex), r1.toNat = d.val → r2.toNat = a.val →
    ∃ t, exec (.shl r1 r2 r3) s = .next t ∧ OnlyRegister d ((s.readReg a).toNat * 2 ^ r3.toNat % 65536) s t

/-- 10_state.md R23, R163: the first used register field above 3, in the order r1, r2, r3, is the fault's information,
whatever the state (for PUSH and POP: with `STACK = Present`, and before the stack is looked at). The fault is the
spec's decision D3 (log entry 6), the order D17. -/
def Obligations.RegisterFieldAboveThreeFaults : Prop :=
  ∀ (s : State) (r1 r2 r3 : Nibble) (imm : Byte),
    (4 ≤ r1.toNat →
      exec (.loadi r1 imm) s = .fault (.regIndexOutOfRange r1) ∧
      exec (.add r1 r2 r3) s = .fault (.regIndexOutOfRange r1) ∧
      exec (.shr r1 r2 r3) s = .fault (.regIndexOutOfRange r1) ∧
      exec (.shl r1 r2 r3) s = .fault (.regIndexOutOfRange r1) ∧
      exec (.load r1 imm) s = .fault (.regIndexOutOfRange r1) ∧
      exec (.store r1 imm) s = .fault (.regIndexOutOfRange r1) ∧
      (s.cfg.stack = .present →
        exec (.push r1 imm) s = .fault (.regIndexOutOfRange r1) ∧
        exec (.pop r1 imm) s = .fault (.regIndexOutOfRange r1))) ∧
    (r1.toNat < 4 → 4 ≤ r2.toNat →
      exec (.add r1 r2 r3) s = .fault (.regIndexOutOfRange r2) ∧
      exec (.shr r1 r2 r3) s = .fault (.regIndexOutOfRange r2) ∧
      exec (.shl r1 r2 r3) s = .fault (.regIndexOutOfRange r2)) ∧
    (r1.toNat < 4 → r2.toNat < 4 → 4 ≤ r3.toNat →
      exec (.add r1 r2 r3) s = .fault (.regIndexOutOfRange r3))

/-- 70_reset_and_hazards.md R185 item 1, R66: a well-formed instruction never raises the register fault, in any state. -/
def Obligations.WellFormedNeverRaisesRegIndex : Prop :=
  ∀ (i : Instr) (s : State) (k : Nibble), i.wellFormed = true → exec i s ≠ .fault (.regIndexOutOfRange k)

/-! ### Load and store (42_load_store.md) -/

/-- LOAD (R120): completes when `r1` names a register; the whole word `M[imm]`, for every `imm`, and nothing else
changes. -/
def Obligations.LoadReadsTheWord : Prop :=
  ∀ (s : State) (r1 : Nibble) (imm : Byte) (d : RegIndex), r1.toNat = d.val →
    ∃ t, exec (.load r1 imm) s = .next t ∧ OnlyRegister d (s.memRead imm).toNat s t

/-- STORE (R121, 20_memory.md R46): completes when `r1` names a register; `M[imm]` holds the register's word, every other
word reads as before, and nothing else changes. The canonical form of memory is kept (log entry 5). -/
def Obligations.StoreWritesOneWord : Prop :=
  ∀ (s : State) (r1 : Nibble) (imm : Byte) (a : RegIndex), s.mem.wf = true → r1.toNat = a.val →
    ∃ t, exec (.store r1 imm) s = .next t ∧ t.memRead imm = s.readReg a ∧
      (∀ b, b ≠ imm → t.memRead b = s.memRead b) ∧ t.mem.wf = true ∧ RegsSame s t ∧ ControlSame s t

/-- R122: a STORE to `a`, then any states in which `M[a]` was not written, then a LOAD from `a`, returns the stored value
unchanged. -/
def Obligations.StoreThenLoadRoundTrip : Prop :=
  ∀ (s t u : State) (r1 q1 : Nibble) (imm : Byte) (a d : RegIndex), s.mem.wf = true → r1.toNat = a.val →
    q1.toNat = d.val → exec (.store r1 imm) s = .next t → u.memRead imm = t.memRead imm →
    ∃ v, exec (.load q1 imm) u = .next v ∧ v.readReg d = s.readReg a

/-- 20_memory.md R56: in `Unified` a STORE or PUSH is seen by the very next fetch of the word it wrote; in `Split` no
instruction changes what any fetch gives. -/
def Obligations.FetchSeesTheStore : Prop :=
  (∀ (s t : State) (r1 : Nibble) (imm : Byte) (a : RegIndex), s.mem.wf = true → s.cfg.layout = .unified →
    r1.toNat = a.val → exec (.store r1 imm) s = .next t → t.fetch (imm.setWidth 16) = .ok (s.readReg a)) ∧
  (∀ (s t : State) (r1 : Nibble) (imm : Byte) (a : RegIndex), s.mem.wf = true → s.cfg.layout = .unified →
    s.cfg.stack = .present → s.sp.toNat ≤ 255 → r1.toNat = a.val → exec (.push r1 imm) s = .next t →
    t.fetch (BitVec.ofNat 16 (255 - s.sp.toNat)) = .ok (s.readReg a)) ∧
  (∀ (s t : State) (i : Instr) (a : Word), s.cfg.layout = .split → exec i s = .next t → t.fetch a = s.fetch a)

/-! ### SYSCALL (43_syscall.md) -/

/-- R130 with `imm != 0`: no change at all, no pop, no output, no fault (decision D8, log entry 10). -/
def Obligations.OtherSyscallNumbersDoNothing : Prop :=
  ∀ (s : State) (r1 : Nibble) (imm : Byte), imm ≠ 0 → exec (.syscall r1 imm) s = .next s

/-- R131, R132, R134 with `STACK = Absent`: from an address in `x[0]` up to 255 whose byte stream holds a zero byte, the
bytes before the first zero byte are appended to `out`, and nothing else changes, `x[0]` included. -/
def Obligations.PrintStringFromRegisterZero : Prop :=
  ∀ (s : State) (r1 : Nibble) (k : Nat), s.cfg.stack = .absent → (s.readReg 0).toNat ≤ 255 →
    FirstZeroByte s.mem (s.readReg 0).toNat k →
    ∃ t, exec (.syscall r1 0) s = .next t ∧ OnlyOutputAndSp s.mem (s.readReg 0).toNat k s.sp.toNat s t

/-- R131, R132, R134, R144 with `STACK = Present`: the address is the top word of the stack, which is popped. -/
def Obligations.PrintStringFromTheStack : Prop :=
  ∀ (s : State) (r1 : Nibble) (top : Byte) (k : Nat), s.cfg.stack = .present → 1 ≤ s.sp.toNat →
    s.sp.toNat ≤ 256 → top.toNat = 256 - s.sp.toNat → (s.memRead top).toNat ≤ 255 →
    FirstZeroByte s.mem (s.memRead top).toNat k →
    ∃ t, exec (.syscall r1 0) s = .next t ∧
      OnlyOutputAndSp s.mem (s.memRead top).toNat k (s.sp.toNat - 1) s t

/-- R134, R161: when syscall 0 faults, and with which reason, in both configurations; the faults are the spec's decisions
D7 and D9 (log entries 8 and 9). With an address above 255 it faults even where the string would be empty (R135). -/
def Obligations.PrintStringFaults : Prop :=
  ∀ (s : State) (r1 : Nibble),
    (s.cfg.stack = .present → s.sp = 0 → exec (.syscall r1 0) s = .fault .stackUnderflow) ∧
    (s.cfg.stack = .absent → 256 ≤ (s.readReg 0).toNat →
      exec (.syscall r1 0) s = .fault (.syscallAddrOutOfRange (s.readReg 0))) ∧
    (s.cfg.stack = .absent → (s.readReg 0).toNat ≤ 255 →
      (∀ j < 2 * (256 - (s.readReg 0).toNat), streamByte s.mem (s.readReg 0).toNat j ≠ 0) →
      exec (.syscall r1 0) s = .fault (.stringUnterminated (s.readReg 0))) ∧
    (∀ top : Byte, s.cfg.stack = .present → 1 ≤ s.sp.toNat → s.sp.toNat ≤ 256 → top.toNat = 256 - s.sp.toNat →
      (256 ≤ (s.memRead top).toNat →
        exec (.syscall r1 0) s = .fault (.syscallAddrOutOfRange (s.memRead top))) ∧
      ((s.memRead top).toNat ≤ 255 →
        (∀ j < 2 * (256 - (s.memRead top).toNat), streamByte s.mem (s.memRead top).toNat j ≠ 0) →
        exec (.syscall r1 0) s = .fault (.stringUnterminated (s.memRead top))))

/-- R133, R134: only syscall 0 emits; bytes are appended, never removed or reordered; the zero terminator is never
emitted. -/
def Obligations.OnlySyscallZeroEmits : Prop :=
  ∀ (i : Instr) (s t : State), exec i s = .next t →
    ∃ bs : List Byte, t.out = s.out ++ bs ∧ (∀ b ∈ bs, b ≠ 0) ∧ ((∀ r1, i ≠ .syscall r1 0) → bs = [])

/-! ### Stack and jump (44_stack_jump.md), `STACK = Present` -/

/-- PUSH (R142, R141): completes at depth 0..255 when `r1` names a register; `sp` is one more, the word is written to
`256 - sp` for the new `sp`, every other word reads as before, and nothing else changes. -/
def Obligations.PushWritesTheNextSlot : Prop :=
  ∀ (s : State) (r1 : Nibble) (imm : Byte) (a : RegIndex), s.mem.wf = true → s.cfg.stack = .present →
    s.sp.toNat ≤ 255 → r1.toNat = a.val →
    ∃ t, exec (.push r1 imm) s = .next t ∧ t.sp.toNat = s.sp.toNat + 1 ∧
      (∀ b : Byte, b.toNat = 256 - (s.sp.toNat + 1) → t.memRead b = s.readReg a) ∧
      (∀ b : Byte, b.toNat ≠ 256 - (s.sp.toNat + 1) → t.memRead b = s.memRead b) ∧
      t.mem.wf = true ∧ RegsSame s t ∧ t.pc = s.pc ∧ t.running = s.running ∧ t.out = s.out ∧ t.cfg = s.cfg ∧
      t.code = s.code

/-- POP (R143, R144): completes at depth 1..256 when `r1` names a register; the register holds the word at `256 - sp` for
the old `sp`, `sp` is one less, and nothing else changes: the slot keeps its word. -/
def Obligations.PopReadsTheTopSlot : Prop :=
  ∀ (s : State) (r1 : Nibble) (imm top : Byte) (d : RegIndex), s.cfg.stack = .present → 1 ≤ s.sp.toNat →
    s.sp.toNat ≤ 256 → top.toNat = 256 - s.sp.toNat → r1.toNat = d.val →
    ∃ t, exec (.pop r1 imm) s = .next t ∧ t.readReg d = s.memRead top ∧
      (∀ k, k ≠ d → t.readReg k = s.readReg k) ∧ t.sp.toNat = s.sp.toNat - 1 ∧ MemSame s t ∧ t.pc = s.pc ∧
      t.running = s.running ∧ t.out = s.out ∧ t.cfg = s.cfg ∧ t.code = s.code

/-- JUMP (R145): completes in every state; `pc` is `imm` zero-extended, and nothing else changes. As a step, the target
is not overwritten by the PC advance (R83, R187). -/
def Obligations.JumpSetsPc : Prop :=
  (∀ (s : State) (r1 : Nibble) (imm : Byte), s.cfg.stack = .present →
    exec (.jump r1 imm) s = .next { s with pc := BitVec.ofNat 16 imm.toNat }) ∧
  (∀ (s : State) (w : Word), s.running = true → s.cfg.stack = .present → s.fetch s.pc = .ok w →
    w &&& 0xF000 = 0xB000 → step s = .next { s with pc := w &&& 0x00FF })

/-- R142, R144, R163: a push at depth 256 and a pop at depth 0 fault, a bad register field being reported first. The
faults are the spec's decision D7 (log entry 8). -/
def Obligations.StackOverflowAndUnderflowFault : Prop :=
  ∀ (s : State) (r1 : Nibble) (imm : Byte), s.cfg.stack = .present →
    (r1.toNat < 4 → s.sp = 256 → exec (.push r1 imm) s = .fault .stackOverflow) ∧
    (r1.toNat < 4 → s.sp = 0 → exec (.pop r1 imm) s = .fault .stackUnderflow) ∧
    (4 ≤ r1.toNat → exec (.push r1 imm) s = .fault (.regIndexOutOfRange r1) ∧
      exec (.pop r1 imm) s = .fault (.regIndexOutOfRange r1))

/-- R146: a PUSH, then any states in which neither `sp` nor the slot differs, then a POP, gives the pushed value and the
depth before the push. -/
def Obligations.PushThenPopRestores : Prop :=
  ∀ (s t u : State) (r1 q1 : Nibble) (x y : Byte) (a d : RegIndex), s.mem.wf = true → s.cfg.stack = .present →
    s.sp.toNat ≤ 256 → r1.toNat = a.val → q1.toNat = d.val → exec (.push r1 x) s = .next t →
    u.cfg = t.cfg → u.sp = t.sp → (∀ b : Byte, b.toNat = 256 - t.sp.toNat → u.memRead b = t.memRead b) →
    ∃ v, exec (.pop q1 y) u = .next v ∧ v.readReg d = s.readReg a ∧ v.sp = s.sp

/-- R145: a target at or beyond `CODE_SIZE`, possible only in `Split`, is no fault at the JUMP; the next step's fetch
faults (the fault is decision D5, log entry 7). And such a JUMP is the only step of a Running instance after which `pc` is
above `CODE_SIZE`: after every other one `pc <= CODE_SIZE` holds, whether or not the next step faults (log entry 14). -/
def Obligations.JumpBeyondSplitCodeFaultsAtTheNextFetch : Prop :=
  (∀ (s : State) (w : Word), s.running = true → s.cfg = ⟨.split, .present⟩ → s.fetch s.pc = .ok w →
    w &&& 0xF000 = 0xB000 → s.code.length ≤ (w &&& 0x00FF).toNat →
    ∃ t, step s = .next t ∧ t.pc = w &&& 0x00FF ∧ step t = .fault (.fetchOutOfRange (w &&& 0x00FF))) ∧
  (∀ (s t : State) (w : Word), s.running = true → s.fetch s.pc = .ok w → step s = .next t →
    t.codeSize < t.pc.toNat →
    s.cfg = ⟨.split, .present⟩ ∧ w &&& 0xF000 = 0xB000 ∧ t.pc = w &&& 0x00FF)

/-! ### Whole-machine rules -/

/-- 10_state.md R22: a general register changes only as the destination `r1` of LOADI, ADD, SHR, SHL, LOAD, or, with
`STACK = Present`, POP. -/
def Obligations.RegistersWrittenOnlyAsDestinations : Prop :=
  ∀ (i : Instr) (s t : State) (k : RegIndex), exec i s = .next t → t.readReg k ≠ s.readReg k →
    ∃ r1 : Nibble, r1.toNat = k.val ∧
      ((∃ imm, i = .loadi r1 imm ∨ i = .load r1 imm) ∨
       (∃ r2 r3, i = .add r1 r2 r3 ∨ i = .shr r1 r2 r3 ∨ i = .shl r1 r2 r3) ∨
       (s.cfg.stack = .present ∧ ∃ imm, i = .pop r1 imm))

/-- 20_memory.md R46, R47: a word of `M` changes only at STORE's `imm`, or at the slot a PUSH writes. -/
def Obligations.MemoryWrittenOnlyByStoreAndPush : Prop :=
  ∀ (i : Instr) (s t : State) (a : Byte), s.Inv → exec i s = .next t → t.memRead a ≠ s.memRead a →
    (∃ r1, i = .store r1 a) ∨
    (s.cfg.stack = .present ∧ a.toNat = 256 - (s.sp.toNat + 1) ∧ ∃ r1 imm, i = .push r1 imm)

/-- 10_state.md R30: `sp` changes only by PUSH (one more) and by POP and syscall 0 (one less), with `STACK = Present`. -/
def Obligations.SpWrittenOnlyByStackInstructions : Prop :=
  ∀ (i : Instr) (s t : State), s.Inv → exec i s = .next t → t.sp ≠ s.sp →
    s.cfg.stack = .present ∧
    ((∃ r1 imm, i = .push r1 imm ∧ t.sp.toNat = s.sp.toNat + 1) ∨
     (((∃ r1 imm, i = .pop r1 imm) ∨ ∃ r1, i = .syscall r1 0) ∧ t.sp.toNat + 1 = s.sp.toNat))

/-- 10_state.md R28: HALT is the only instruction that writes `running`, and it writes it only to false; no instruction
sets it back to true. -/
def Obligations.RunningWrittenOnlyByHalt : Prop :=
  ∀ (i : Instr) (s t : State), exec i s = .next t →
    (t.running ≠ s.running → t.running = false ∧ ∃ r1 imm, i = .halt r1 imm) ∧
    (s.running = false → t.running = false)

/-- 10_state.md R26, 40_engine.md R83, R89: after a step `pc` is JUMP's target where the word is a JUMP of a stack
configuration, and the fetched address plus 1 everywhere else. -/
def Obligations.PcAfterAStep : Prop :=
  ∀ (s t : State) (w : Word), s.running = true → s.fetch s.pc = .ok w → step s = .next t →
    (s.cfg.stack = .present → w &&& 0xF000 = 0xB000 → t.pc = w &&& 0x00FF) ∧
    (s.cfg.stack = .absent ∨ w &&& 0xF000 ≠ 0xB000 → t.pc = s.pc + 1)

/-- 00_scope.md R3, 20_memory.md R41: the configuration and the code array never change. -/
def Obligations.ConfigurationAndCodeArrayNeverChange : Prop :=
  ∀ s t : State, step s = .next t → t.cfg = s.cfg ∧ t.code = s.code

/-- 10_state.md R26: no instruction reads `pc` as an operand. From two states that differ only in `pc`, an instruction
faults alike, or completes in states that differ only in `pc`, and in nothing where it is a JUMP of a stack
configuration. -/
def Obligations.PcIsNoOperand : Prop :=
  ∀ (i : Instr) (s : State) (p : Word),
    (∀ r, exec i s = .fault r → exec i (s.setPc p) = .fault r) ∧
    (∀ t, exec i s = .next t →
      ((s.cfg.stack = .present ∧ ∃ r1 imm, i = .jump r1 imm) → exec i (s.setPc p) = .next t) ∧
      (¬(s.cfg.stack = .present ∧ ∃ r1 imm, i = .jump r1 imm) → exec i (s.setPc p) = .next (t.setPc p)))

/-- 20_memory.md R41: no instruction reads the code array as data. Whatever stands in it, an instruction's body faults
alike or completes alike. -/
def Obligations.CodeArrayIsNoOperand : Prop :=
  ∀ (i : Instr) (s : State) (c : List Word),
    (∀ r, exec i s = .fault r → exec i { s with code := c } = .fault r) ∧
    (∀ t, exec i s = .next t → exec i { s with code := c } = .next { t with code := c })

/-- 60_exceptions.md R161, the table's columns "reason (info)", "raised by" and "condition" for the faults of an
instruction's body (the faults themselves are the spec's decision D16): `k` is the first used register field above 3
(R163 item 2), and the address of the two string faults is the string address of R131. -/
def Obligations.FaultsOnlyAsTheTableSays : Prop :=
  ∀ (i : Instr) (s : State) (r : Fault), exec i s = .fault r →
    (∀ pc, r ≠ .fetchOutOfRange pc) ∧
    (∀ k, r = .regIndexOutOfRange k → 4 ≤ k.toNat ∧ i.wellFormed = false ∧
      (registerFields s.cfg.stack i).find? (fun f => decide (4 ≤ f.toNat)) = some k) ∧
    (r = .stackOverflow → s.cfg.stack = .present ∧ s.sp = 256 ∧ ∃ r1 imm, i = .push r1 imm) ∧
    (r = .stackUnderflow → s.cfg.stack = .present ∧ s.sp = 0 ∧
      ((∃ r1 imm, i = .pop r1 imm) ∨ ∃ r1, i = .syscall r1 0)) ∧
    (∀ a, r = .syscallAddrOutOfRange a → 256 ≤ a.toNat ∧ IsStringAddress s a ∧ ∃ r1, i = .syscall r1 0) ∧
    (∀ a, r = .stringUnterminated a → a.toNat ≤ 255 ∧ IsStringAddress s a ∧
      (∀ j < 2 * (256 - a.toNat), streamByte s.mem a.toNat j ≠ 0) ∧ ∃ r1, i = .syscall r1 0)

/-! ### Memory -/

/-- Canonical memories that read alike at every address 0..255 are the same data (log entry 5). -/
def Obligations.EqualReadsAreEqualMemories : Prop :=
  ∀ m n : Memory, m.wf = true → n.wf = true → (∀ a : Byte, m.read a.toNat = n.read a.toNat) → m = n

/-! ### Construction (70_reset_and_hazards.md) -/

/-- R34, R181, 20_memory.md R42 and R43: every value right after construction, for every program that fits and every
configuration. The spec gives `sp` its value 0 where `sp` exists, with `STACK = Present`; the clause `s.sp = 0` with
`STACK = Absent` is the model's choice (DESIGN CHOICE, log entry 4). -/
def Obligations.ValuesAfterConstruction : Prop :=
  ∀ (P : List Word) (cfg : Config), P.length ≤ Config.maxProgramWords cfg.layout →
    ∃ s, construct P cfg = .ok s ∧ s.cfg = cfg ∧ (∀ k, s.readReg k = 0) ∧ s.pc = 0 ∧ s.sp = 0 ∧ s.running = true ∧
      s.out = [] ∧
      (cfg.layout = .unified →
        (∀ a : Byte, s.memRead a = if h : a.toNat < P.length then P[a.toNat] else 0) ∧ s.codeSize = 256) ∧
      (cfg.layout = .split → (∀ a : Byte, s.memRead a = 0) ∧ s.code = P ∧ s.codeSize = P.length)

/-- R182: exactly the programs of more than 256 words (`Unified`) or more than 65535 words (`Split`) are refused (the
spec's decisions D5, D6, log entry 23). -/
def Obligations.TooLongProgramsAreRefused : Prop :=
  ∀ (P : List Word) (st : StackOption),
    (construct P ⟨.unified, st⟩ = .error (.programTooLong P.length) ↔ 256 < P.length) ∧
    (construct P ⟨.split, st⟩ = .error (.programTooLong P.length) ↔ 65535 < P.length)

/-- R180: in hardware, construction is `rst` on the blocks and the program load through the `ld_*` port; it gives the same
instance (the port is the spec's decision D12, D13, log entry 21; what memory holds at `rst`, before the load, is the
model's choice, DESIGN CHOICE, log entry 25). -/
def Obligations.ConstructionIsRstThenLoad : Prop :=
  ∀ (P : List Word) (cfg : Config), P.length ≤ Config.maxProgramWords cfg.layout →
    construct P cfg = .ok ((rstState cfg P.length).loadFrom 0 P)

/-- R34 for `State.reset`: the instance constructed from the empty program with `LAYOUT = Unified` and
`STACK = Present`, a choice of the model's (log entries 1 and 2). -/
def Obligations.ResetIsAConstruction : Prop :=
  construct [] ⟨.unified, .present⟩ = .ok State.reset ∧
  (∀ k, State.reset.readReg k = 0) ∧ State.reset.pc = 0 ∧ State.reset.sp = 0 ∧ State.reset.running = true ∧
  (∀ a : Byte, State.reset.memRead a = 0) ∧ State.reset.out = []

/-! ### The invariant -/

/-- The invariant holds at reset. What `State.reset` is, is the model's choice (the `Unified` and `Present` instance of the
empty program; DESIGN CHOICE, log entries 1 and 2), as is the invariant's empty `code` in `Unified` (DESIGN CHOICE, log
entry 4); its canonical form of memory is log entry 5, its bound on `pc` log entry 14. -/
def Obligations.InvariantHoldsAtReset : Prop := State.reset.Inv

/-- The invariant holds after every construction. Its clauses `sp = 0` with `STACK = Absent` and empty `code` with
`LAYOUT = Unified` are the model's choice and no rule's (DESIGN CHOICE, log entry 4); its canonical form of memory is log
entry 5, its bound on `pc` log entry 14. -/
def Obligations.InvariantHoldsAfterConstruction : Prop :=
  ∀ (P : List Word) (cfg : Config) (s : State), construct P cfg = .ok s → s.Inv

/-- Every step keeps the invariant: the memory stays canonical and inside 0..255, `sp` stays in 0..256 (10_state.md R30),
what does not exist in the configuration stays absent (R20; log entry 4), `pc` stays at most `CODE_SIZE` (R27), but for a
Running `Split` instance right after a JUMP beyond its code (R145; log entry 14). -/
def Obligations.EveryStepKeepsTheInvariant : Prop :=
  ∀ s t : State, s.Inv → step s = .next t → t.Inv

/-- Every state of every run of every constructed instance meets the invariant: the corollary of the two statements before
it. The invariant's clauses on `pc` and on what does not exist in a configuration are the model's (log entries 14 and 4). -/
def Obligations.EveryReachableStateMeetsTheInvariant : Prop :=
  ∀ (P : List Word) (cfg : Config) (s t : State) (n : Nat), construct P cfg = .ok s →
    Host.Core.run Sys2Proof.core n s = .next t → t.Inv

/-- 10_state.md R27 (an inference the spec marks as its own), with "non-faulted state" read by 60_exceptions.md R162 and
D4's "non-faulted run" (DEDUCED, log entry 14): `pc <= CODE_SIZE` in every non-faulted state of the invariant, a Halted one
among them, and in every state of a run from construction that never faults; where `pc` is above `CODE_SIZE`, the instance
is a Running `Split` one with a stack and its step is the fetch fault; so, where a fetch succeeds, `pc + 1` does not wrap. -/
def Obligations.PcAdvanceNeverWraps : Prop :=
  (∀ (s : State) (w : Word), s.Inv → s.fetch s.pc = .ok w → (s.pc + 1).toNat = s.pc.toNat + 1) ∧
  (∀ s : State, s.Inv → s.NonFaulted → s.pc.toNat ≤ s.codeSize) ∧
  (∀ (P : List Word) (cfg : Config) (s t : State) (n : Nat), construct P cfg = .ok s → NeverFaults s →
    Host.Core.run Sys2Proof.core n s = .next t → t.pc.toNat ≤ t.codeSize) ∧
  (∀ s : State, s.Inv → s.codeSize < s.pc.toNat →
    s.cfg = ⟨.split, .present⟩ ∧ s.running = true ∧ step s = .fault (.fetchOutOfRange s.pc))

/-! ### Host interactions (60_exceptions.md R162, R170) -/

/-- R170: driving `m` steps and then `n` more is driving `m + n`; with `N = 1` repeated the budget single-steps. -/
def Obligations.BudgetsCompose : Prop :=
  ∀ (m n : Nat) (s : State), runBudget (m + n) s = (runBudget m s).more n

/-- R162, R170: a spent budget leaves exactly the state after its steps, still Running; a faulted run leaves the pre-step
state together with the reason; a halted one leaves a Halted state. -/
def Obligations.BudgetLeavesTheStateOfItsSteps : Prop :=
  ∀ (n : Nat) (s t : State),
    (runBudget n s = .budgetSpent t → Host.Core.run Sys2Proof.core n s = .next t ∧ t.running = true) ∧
    (∀ r, runBudget n s = .faulted t r →
      t.running = true ∧ step t = .fault r ∧ ∃ k < n, Host.Core.run Sys2Proof.core k s = .next t) ∧
    (runBudget n s = .halted t → t.running = false ∧ ∃ k ≤ n, Host.Core.run Sys2Proof.core k s = .next t)

/-! ### The blocks (00_scope.md R2) -/

/-- The composed blocks with the control table of R90, the fields of R22, the fault order of R163 and the mux of R89 do
exactly what a step does, for every instance: same next state, same fault, and a Halted instance unchanged (log entry 3).
`step_commit` is 1 exactly where `running` was true and the step completes; then `pc_next` is R89's mux, and otherwise no
block changes. The block interfaces are the spec's decision D12 and the order of faults D17 (log entries 16 and 21). -/
def Obligations.BlocksImplementTheStep : Prop :=
  (∀ s : State, blockStep s = step s) ∧
  (∀ s : State, stepCommit s = true ↔ s.running = true ∧ ∃ t, step s = .next t) ∧
  (∀ s : State, stepCommit s = true →
    (clock s).pc = if s.cfg.stack = .present ∧ (fetchedFields s).opcode = 11 then zext16 (fetchedFields s).imm
      else s.pc + 1) ∧
  (∀ s : State, stepCommit s = false → clock s = s)

/-- R136, in four parts.
The port: whatever `out_ready` does, the accepted bytes followed by the pending ones are the same bytes in order; a clock
emits `out_byte`, the first pending byte, when `out_valid & out_ready`; and when `out_ready` was 1 at least as often as
there were bytes, every byte has been accepted.
What a step feeds it: the bytes the step appends to `out`, and none where the step faults, where the instance is Halted,
or where the word is not a syscall with number 0.
The hardware while a byte is pending: the port alone moves, no instruction starts.
The hardware otherwise: the step, with the step's bytes all pending; or the step's fault, with nothing emitted.
The port and its machine stand apart from the step (decision D12; DESIGN CHOICE, log entries 12 and 21). -/
def Obligations.OutputPortDeliversInOrder : Prop :=
  (∀ (p : OutPort) (ready : List Bool),
    (p.ticks ready).drained = p.drained ∧
    (p.ticks ready).accepted.length = p.accepted.length + min (ready.count true) p.pending.length ∧
    (p.pending.length ≤ ready.count true →
      (p.ticks ready).pending = [] ∧ (p.ticks ready).accepted = p.accepted ++ p.pending) ∧
    (∀ (b : Byte) (bs : List Byte), p.pending = b :: bs →
      p.valid = true ∧ p.byte = some b ∧ p.tick true = ⟨bs, p.accepted ++ [b]⟩ ∧ p.tick false = p)) ∧
  (∀ s : State, (outPort s).accepted = s.out ∧
    (∀ t, step s = .next t → t.out = s.out ++ (outPort s).pending) ∧
    (∀ r, step s = .fault r → (outPort s).pending = []) ∧
    (s.running = false → (outPort s).pending = []) ∧
    (∀ w, s.fetch s.pc = .ok w → w &&& 0xF0FF ≠ 0x6000 → (outPort s).pending = [])) ∧
  (∀ (h : Hardware) (ready : Bool), h.pending ≠ [] →
    ∃ g, h.clock ready = .next g ∧ g.port = h.port.tick ready ∧ g.architectural = h.architectural ∧
      { g.core with out := h.core.out } = h.core) ∧
  (∀ (h : Hardware) (ready : Bool), h.pending = [] →
    (∀ t, step h.core = .next t →
      ∃ g, h.clock ready = .next g ∧ g.architectural = t ∧ g.core.out = h.core.out ∧
        g.pending = (outPort h.core).pending) ∧
    (∀ r, step h.core = .fault r → h.clock ready = .fault r))
end

