-- ==== Sys2Proof/Laws/Blocks.lean ====
section
/-! SUPPORT. The signals of the composed blocks: when a step commits, what the engine drives then, and what one clock does
to the output port (40_engine.md R89, R90; 43_syscall.md R136). -/

namespace Sys2Proof.Machine

variable {s : State}

theorem stepCommit_eq_true : stepCommit s = true ↔ s.running = true ∧ stepFault s = none := by
  simp [stepCommit]

@[simp] theorem stepFault_of_halted (h : s.running = false) : stepFault s = none := by simp [stepFault, h]

@[simp] theorem stepCommit_of_halted (h : s.running = false) : stepCommit s = false := by simp [stepCommit, h]

theorem signals_of_commit (h : stepCommit s = true) : signals s = controlOf s.cfg.stack (fetchedFields s) := by
  simp [signals, h]

theorem signals_of_no_commit (h : stepCommit s = false) : signals s = { } := by simp [signals, h]

theorem outBytes_of_no_commit (h : stepCommit s = false) : outBytes s = [] := by
  simp [outBytes, signals_of_no_commit h]

theorem clock_out : (clock s).out = s.out ++ outBytes s := rfl

namespace OutPort

@[simp] theorem tick_nil (out : List Byte) (ready : Bool) : tick ⟨[], out⟩ ready = ⟨[], out⟩ := rfl

@[simp] theorem tick_cons_ready (b : Byte) (bs out : List Byte) : tick ⟨b :: bs, out⟩ true = ⟨bs, out ++ [b]⟩ := rfl

@[simp] theorem tick_not_ready (p : OutPort) : p.tick false = p := by simp [tick]

@[simp] theorem ticks_nil (p : OutPort) : p.ticks [] = p := rfl

@[simp] theorem ticks_cons (p : OutPort) (r : Bool) (rs : List Bool) : p.ticks (r :: rs) = (p.tick r).ticks rs := rfl

end OutPort

end Sys2Proof.Machine
end

