-- ==== Sys2Proof/Laws/State.lean ====
section
/-! SUPPORT. One lemma per field of State per update, true by rfl, so that no proof unfolds a record update. -/

namespace Sys2Proof.Machine

variable (s : State)

/-! ### writeReg -/

@[simp] theorem State.writeReg_cfg (k : RegIndex) (v : Word) : (s.writeReg k v).cfg = s.cfg := (rfl)
@[simp] theorem State.writeReg_regs (k : RegIndex) (v : Word) : (s.writeReg k v).regs = s.regs.set k v := (rfl)
@[simp] theorem State.writeReg_pc (k : RegIndex) (v : Word) : (s.writeReg k v).pc = s.pc := (rfl)
@[simp] theorem State.writeReg_sp (k : RegIndex) (v : Word) : (s.writeReg k v).sp = s.sp := (rfl)
@[simp] theorem State.writeReg_running (k : RegIndex) (v : Word) : (s.writeReg k v).running = s.running := (rfl)
@[simp] theorem State.writeReg_mem (k : RegIndex) (v : Word) : (s.writeReg k v).mem = s.mem := (rfl)
@[simp] theorem State.writeReg_code (k : RegIndex) (v : Word) : (s.writeReg k v).code = s.code := (rfl)
@[simp] theorem State.writeReg_out (k : RegIndex) (v : Word) : (s.writeReg k v).out = s.out := (rfl)
@[simp] theorem State.memRead_writeReg (k : RegIndex) (v : Word) (b : Byte) :
    (s.writeReg k v).memRead b = s.memRead b := (rfl)
@[simp] theorem State.codeSize_writeReg (k : RegIndex) (v : Word) : (s.writeReg k v).codeSize = s.codeSize := (rfl)

/-! ### memWrite -/

@[simp] theorem State.memWrite_cfg (a : Byte) (v : Word) : (s.memWrite a v).cfg = s.cfg := (rfl)
@[simp] theorem State.memWrite_regs (a : Byte) (v : Word) : (s.memWrite a v).regs = s.regs := (rfl)
@[simp] theorem State.memWrite_pc (a : Byte) (v : Word) : (s.memWrite a v).pc = s.pc := (rfl)
@[simp] theorem State.memWrite_sp (a : Byte) (v : Word) : (s.memWrite a v).sp = s.sp := (rfl)
@[simp] theorem State.memWrite_running (a : Byte) (v : Word) : (s.memWrite a v).running = s.running := (rfl)
@[simp] theorem State.memWrite_mem (a : Byte) (v : Word) : (s.memWrite a v).mem = s.mem.write a.toNat v := (rfl)
@[simp] theorem State.memWrite_code (a : Byte) (v : Word) : (s.memWrite a v).code = s.code := (rfl)
@[simp] theorem State.memWrite_out (a : Byte) (v : Word) : (s.memWrite a v).out = s.out := (rfl)
@[simp] theorem State.readReg_memWrite (a : Byte) (v : Word) (j : RegIndex) :
    (s.memWrite a v).readReg j = s.readReg j := (rfl)
@[simp] theorem State.codeSize_memWrite (a : Byte) (v : Word) : (s.memWrite a v).codeSize = s.codeSize := (rfl)

/-! ### setPc -/

@[simp] theorem State.setPc_cfg (v : Word) : (s.setPc v).cfg = s.cfg := (rfl)
@[simp] theorem State.setPc_regs (v : Word) : (s.setPc v).regs = s.regs := (rfl)
@[simp] theorem State.setPc_pc (v : Word) : (s.setPc v).pc = v := (rfl)
@[simp] theorem State.setPc_sp (v : Word) : (s.setPc v).sp = s.sp := (rfl)
@[simp] theorem State.setPc_running (v : Word) : (s.setPc v).running = s.running := (rfl)
@[simp] theorem State.setPc_mem (v : Word) : (s.setPc v).mem = s.mem := (rfl)
@[simp] theorem State.setPc_code (v : Word) : (s.setPc v).code = s.code := (rfl)
@[simp] theorem State.setPc_out (v : Word) : (s.setPc v).out = s.out := (rfl)
@[simp] theorem State.readReg_setPc (v : Word) (j : RegIndex) :
    (s.setPc v).readReg j = s.readReg j := (rfl)
@[simp] theorem State.memRead_setPc (v : Word) (b : Byte) :
    (s.setPc v).memRead b = s.memRead b := (rfl)
@[simp] theorem State.codeSize_setPc (v : Word) : (s.setPc v).codeSize = s.codeSize := (rfl)

/-! ### advancePc -/

@[simp] theorem State.advancePc_cfg : (s.advancePc).cfg = s.cfg := (rfl)
@[simp] theorem State.advancePc_regs : (s.advancePc).regs = s.regs := (rfl)
@[simp] theorem State.advancePc_pc : (s.advancePc).pc = s.pc + 1 := (rfl)
@[simp] theorem State.advancePc_sp : (s.advancePc).sp = s.sp := (rfl)
@[simp] theorem State.advancePc_running : (s.advancePc).running = s.running := (rfl)
@[simp] theorem State.advancePc_mem : (s.advancePc).mem = s.mem := (rfl)
@[simp] theorem State.advancePc_code : (s.advancePc).code = s.code := (rfl)
@[simp] theorem State.advancePc_out : (s.advancePc).out = s.out := (rfl)
@[simp] theorem State.readReg_advancePc (j : RegIndex) :
    (s.advancePc).readReg j = s.readReg j := (rfl)
@[simp] theorem State.memRead_advancePc (b : Byte) :
    (s.advancePc).memRead b = s.memRead b := (rfl)
@[simp] theorem State.codeSize_advancePc : (s.advancePc).codeSize = s.codeSize := (rfl)

/-! ### setSp -/

@[simp] theorem State.setSp_cfg (v : Word) : (s.setSp v).cfg = s.cfg := (rfl)
@[simp] theorem State.setSp_regs (v : Word) : (s.setSp v).regs = s.regs := (rfl)
@[simp] theorem State.setSp_pc (v : Word) : (s.setSp v).pc = s.pc := (rfl)
@[simp] theorem State.setSp_sp (v : Word) : (s.setSp v).sp = v := (rfl)
@[simp] theorem State.setSp_running (v : Word) : (s.setSp v).running = s.running := (rfl)
@[simp] theorem State.setSp_mem (v : Word) : (s.setSp v).mem = s.mem := (rfl)
@[simp] theorem State.setSp_code (v : Word) : (s.setSp v).code = s.code := (rfl)
@[simp] theorem State.setSp_out (v : Word) : (s.setSp v).out = s.out := (rfl)
@[simp] theorem State.readReg_setSp (v : Word) (j : RegIndex) :
    (s.setSp v).readReg j = s.readReg j := (rfl)
@[simp] theorem State.memRead_setSp (v : Word) (b : Byte) :
    (s.setSp v).memRead b = s.memRead b := (rfl)
@[simp] theorem State.codeSize_setSp (v : Word) : (s.setSp v).codeSize = s.codeSize := (rfl)

/-! ### emit -/

@[simp] theorem State.emit_cfg (bs : List Byte) : (s.emit bs).cfg = s.cfg := (rfl)
@[simp] theorem State.emit_regs (bs : List Byte) : (s.emit bs).regs = s.regs := (rfl)
@[simp] theorem State.emit_pc (bs : List Byte) : (s.emit bs).pc = s.pc := (rfl)
@[simp] theorem State.emit_sp (bs : List Byte) : (s.emit bs).sp = s.sp := (rfl)
@[simp] theorem State.emit_running (bs : List Byte) : (s.emit bs).running = s.running := (rfl)
@[simp] theorem State.emit_mem (bs : List Byte) : (s.emit bs).mem = s.mem := (rfl)
@[simp] theorem State.emit_code (bs : List Byte) : (s.emit bs).code = s.code := (rfl)
@[simp] theorem State.emit_out (bs : List Byte) : (s.emit bs).out = s.out ++ bs := (rfl)
@[simp] theorem State.readReg_emit (bs : List Byte) (j : RegIndex) :
    (s.emit bs).readReg j = s.readReg j := (rfl)
@[simp] theorem State.memRead_emit (bs : List Byte) (b : Byte) :
    (s.emit bs).memRead b = s.memRead b := (rfl)
@[simp] theorem State.codeSize_emit (bs : List Byte) : (s.emit bs).codeSize = s.codeSize := (rfl)

/-! ### clearRunning -/

@[simp] theorem State.clearRunning_cfg : (s.clearRunning).cfg = s.cfg := (rfl)
@[simp] theorem State.clearRunning_regs : (s.clearRunning).regs = s.regs := (rfl)
@[simp] theorem State.clearRunning_pc : (s.clearRunning).pc = s.pc := (rfl)
@[simp] theorem State.clearRunning_sp : (s.clearRunning).sp = s.sp := (rfl)
@[simp] theorem State.clearRunning_running : (s.clearRunning).running = false := (rfl)
@[simp] theorem State.clearRunning_mem : (s.clearRunning).mem = s.mem := (rfl)
@[simp] theorem State.clearRunning_code : (s.clearRunning).code = s.code := (rfl)
@[simp] theorem State.clearRunning_out : (s.clearRunning).out = s.out := (rfl)
@[simp] theorem State.readReg_clearRunning (j : RegIndex) :
    (s.clearRunning).readReg j = s.readReg j := (rfl)
@[simp] theorem State.memRead_clearRunning (b : Byte) :
    (s.clearRunning).memRead b = s.memRead b := (rfl)
@[simp] theorem State.codeSize_clearRunning : (s.clearRunning).codeSize = s.codeSize := (rfl)

end Sys2Proof.Machine
end

