-- ==== Sys2Proof/Laws/Memory.lean ====
section
/-! SUPPORT. The word memory: canonical form, and reads after writes (20_memory.md R45, R46, R53). -/

namespace Sys2Proof.Machine

/-! ### The canonical form -/

theorem Memory.wfFrom_cons {lo a : Nat} {v : Word} {m : Memory} :
    Memory.wfFrom lo ((a, v) :: m) = true ↔
      lo ≤ a ∧ a < 256 ∧ v ≠ Memory.unlisted ∧ Memory.wfFrom (a + 1) m = true := by
  simp only [Memory.wfFrom, Bool.and_eq_true, decide_eq_true_eq, and_assoc]

theorem Memory.wfFrom_mono {m : Memory} {lo lo' : Nat} (hle : lo' ≤ lo) (h : m.wfFrom lo = true) :
    m.wfFrom lo' = true := by
  match m with
  | [] => rfl
  | (a, v) :: m =>
    obtain ⟨h1, h2⟩ := Memory.wfFrom_cons.mp h
    exact Memory.wfFrom_cons.mpr ⟨hle.trans h1, h2⟩

/-- Below the first address of a canonical memory every word is unlisted. -/
theorem Memory.read_below {m : Memory} {lo a : Nat} (h : m.wfFrom lo = true) (ha : a < lo) :
    m.read a = Memory.unlisted := by
  induction m generalizing lo with
  | nil => rfl
  | cons c m ih =>
    obtain ⟨h1, -, -, h4⟩ := Memory.wfFrom_cons.mp h
    have hne : c.1 ≠ a := by omega
    simp only [Memory.read, hne, if_false]
    exact ih h4 (by omega)

/-- Outside 0..255 a canonical memory lists nothing. -/
theorem Memory.read_above {m : Memory} {lo a : Nat} (h : m.wfFrom lo = true) (ha : 256 ≤ a) :
    m.read a = Memory.unlisted := by
  induction m generalizing lo with
  | nil => rfl
  | cons c m ih =>
    obtain ⟨-, h2, -, h4⟩ := Memory.wfFrom_cons.mp h
    have hne : c.1 ≠ a := by omega
    simp only [Memory.read, hne, if_false]
    exact ih h4

theorem Memory.write_wfFrom {m : Memory} {lo a : Nat} (v : Word) (h : m.wfFrom lo = true) (hlo : lo ≤ a)
    (ha : a < 256) : (m.write a v).wfFrom lo = true := by
  induction m generalizing lo with
  | nil =>
    unfold Memory.write
    split
    · rfl
    · exact Memory.wfFrom_cons.mpr ⟨hlo, ha, by assumption, rfl⟩
  | cons c m ih =>
    obtain ⟨h1, h2, h3, h4⟩ := Memory.wfFrom_cons.mp h
    unfold Memory.write
    split
    · split
      · exact h
      · exact Memory.wfFrom_cons.mpr
          ⟨hlo, ha, by assumption, Memory.wfFrom_cons.mpr ⟨by omega, h2, h3, h4⟩⟩
    · split
      · subst_vars
        split
        · exact Memory.wfFrom_mono (by omega) h4
        · exact Memory.wfFrom_cons.mpr ⟨hlo, ha, by assumption, h4⟩
      · exact Memory.wfFrom_cons.mpr ⟨h1, h2, h3, ih h4 (by omega)⟩

/-- Every memory operation keeps the canonical form. -/
theorem Memory.write_wf {m : Memory} (a : Byte) (v : Word) (h : m.wf = true) : (m.write a.toNat v).wf = true :=
  Memory.write_wfFrom v h (Nat.zero_le _) a.isLt

theorem Memory.ofWords_wfFrom {ws : List Word} {a : Nat} (h : a + ws.length ≤ 256) :
    (Memory.ofWords a ws).wfFrom a = true := by
  induction ws generalizing a with
  | nil => rfl
  | cons w ws ih =>
    simp only [List.length_cons] at h
    have hi := ih (a := a + 1) (by omega)
    unfold Memory.ofWords
    split
    · exact Memory.wfFrom_mono (by omega) hi
    · exact Memory.wfFrom_cons.mpr ⟨le_refl _, by omega, by assumption, hi⟩

theorem Memory.ofWords_wf {ws : List Word} (h : ws.length ≤ 256) : (Memory.ofWords 0 ws).wf = true :=
  Memory.ofWords_wfFrom (by omega)

/-- Below its first address the placed program lists nothing. -/
theorem Memory.read_ofWords_below (ws : List Word) {a b : Nat} (h : b < a) :
    (Memory.ofWords a ws).read b = Memory.unlisted := by
  induction ws generalizing a with
  | nil => rfl
  | cons w ws ih =>
    unfold Memory.ofWords
    have hne : a ≠ b := by omega
    split
    · exact ih (by omega)
    · simp only [Memory.read, hne, if_false]
      exact ih (by omega)

/-! ### Reads -/

theorem Memory.read_write_ne (m : Memory) {a b : Nat} (v : Word) (h : b ≠ a) :
    (m.write a v).read b = m.read b := by
  induction m with
  | nil =>
    unfold Memory.write
    split <;> simp [Memory.read, h.symm]
  | cons c m ih =>
    unfold Memory.write
    split
    · split <;> simp [Memory.read, h.symm]
    · split
      · subst_vars
        split <;> simp [Memory.read, h.symm]
      · simp [Memory.read, ih]

theorem Memory.read_write_same_from {m : Memory} {lo a : Nat} (v : Word) (h : m.wfFrom lo = true) :
    (m.write a v).read a = v := by
  induction m generalizing lo with
  | nil =>
    unfold Memory.write
    split <;> simp_all [Memory.read]
  | cons c m ih =>
    obtain ⟨h1, h2, h3, h4⟩ := Memory.wfFrom_cons.mp h
    unfold Memory.write
    split
    · split
      · have hb : Memory.wfFrom c.1 (c :: m) = true := Memory.wfFrom_cons.mpr ⟨le_refl _, h2, h3, h4⟩
        rw [Memory.read_below hb (by assumption)]
        exact Eq.symm (by assumption)
      · simp [Memory.read]
    · split
      · split
        · rw [Memory.read_below h4 (by omega)]
          exact Eq.symm (by assumption)
        · simp [Memory.read]
      · have hne : c.1 ≠ a := by omega
        simp [Memory.read, hne, ih h4]

theorem Memory.read_write_same {m : Memory} (a : Nat) (v : Word) (h : m.wf = true) : (m.write a v).read a = v :=
  Memory.read_write_same_from v h

/-- The placed program reads back word by word, and 0 beyond it (20_memory.md R42). -/
theorem Memory.read_ofWords (ws : List Word) {a b : Nat} (h : a ≤ b) :
    (Memory.ofWords a ws).read b = ws.getD (b - a) 0 := by
  induction ws generalizing a with
  | nil => simp [Memory.ofWords, Memory.read]
  | cons w ws ih =>
    unfold Memory.ofWords
    rcases Nat.eq_or_lt_of_le h with rfl | hlt
    · split
      · rw [Memory.read_ofWords_below _ (Nat.lt_succ_self _)]; simp [*]
      · simp [Memory.read]
    · have hs : b - a = (b - (a + 1)) + 1 := by omega
      have hne : a ≠ b := by omega
      split
      · rw [ih hlt, hs]; simp
      · simp only [Memory.read, hne, if_false]
        rw [ih hlt, hs]; simp

/-- Canonical memories that read alike are equal. -/
theorem Memory.eq_of_read_eq {m n : Memory} {lo : Nat} (hm : m.wfFrom lo = true) (hn : n.wfFrom lo = true)
    (h : ∀ a, m.read a = n.read a) : m = n := by
  induction m generalizing n lo with
  | nil =>
    match n with
    | [] => rfl
    | (b, w) :: n =>
      have hb := h b
      simp only [Memory.read, if_true] at hb
      exact absurd hb.symm (Memory.wfFrom_cons.mp hn).2.2.1
  | cons c m ih =>
    obtain ⟨-, -, h3, h4⟩ := Memory.wfFrom_cons.mp hm
    have hc := h c.1
    simp only [Memory.read, if_true] at hc
    match n with
    | [] => exact absurd hc h3
    | (b, w) :: n =>
      obtain ⟨-, -, k3, k4⟩ := Memory.wfFrom_cons.mp hn
      have hb := h b
      simp only [Memory.read, if_true] at hb hc
      have e : b = c.1 := by
        by_contra hne
        simp only [hne, Ne.symm hne, if_false] at hb hc
        rcases Nat.lt_or_gt_of_ne hne with hlt | hgt
        · exact k3 (hb ▸ Memory.read_below h4 (by omega))
        · exact h3 (hc ▸ Memory.read_below k4 (by omega))
      subst e
      simp only [if_true] at hc
      have htail : m = n := by
        refine ih h4 k4 fun a => ?_
        by_cases ha : a < c.1 + 1
        · rw [Memory.read_below h4 ha, Memory.read_below k4 ha]
        · have := h a
          have hne : c.1 ≠ a := by omega
          simpa only [Memory.read, hne, if_false] using this
      subst htail; subst hc; rfl

@[simp] theorem State.memRead_memWrite_ne (s : State) {a b : Byte} (v : Word) (h : b ≠ a) :
    (s.memWrite a v).memRead b = s.memRead b :=
  Memory.read_write_ne _ _ fun e => h (BitVec.eq_of_toNat_eq e)

theorem State.memRead_memWrite_same {s : State} (a : Byte) (v : Word) (h : s.mem.wf = true) :
    (s.memWrite a v).memRead a = v :=
  Memory.read_write_same _ _ h

end Sys2Proof.Machine
end

