-- ==== Sys2Proof/Laws/Registers.lean ====
section
/-! SUPPORT. The register file: a read after a write (10_state.md R21, R24). -/

namespace Sys2Proof.Machine

@[simp] theorem RegFile.get_set_same (r : RegFile) (k : RegIndex) (v : Word) : (r.set k v).get k = v := by
  fin_cases k <;> rfl

@[simp] theorem RegFile.get_set_ne (r : RegFile) {j k : RegIndex} (v : Word) (h : j ≠ k) :
    (r.set k v).get j = r.get j := by
  fin_cases k <;> fin_cases j <;> first | rfl | exact absurd rfl h

theorem RegFile.ext_get {r q : RegFile} (h : ∀ k, r.get k = q.get k) : r = q := by
  cases r; cases q
  simpa [RegFile.get] using ⟨h 0, h 1, h 2, h 3⟩

@[simp] theorem State.readReg_writeReg_same (s : State) (k : RegIndex) (v : Word) :
    (s.writeReg k v).readReg k = v := RegFile.get_set_same _ _ _

@[simp] theorem State.readReg_writeReg_ne (s : State) {j k : RegIndex} (v : Word) (h : j ≠ k) :
    (s.writeReg k v).readReg j = s.readReg j := RegFile.get_set_ne _ _ h

end Sys2Proof.Machine
end

