-- ==== Sys2Proof/Laws/Operands.lean ====
section
/-! SUPPORT. The shared operations on operands: what each can do, said once (10_state.md R23; 44_stack_jump.md R141, R144). -/

namespace Sys2Proof.Machine

@[simp] theorem complete_ok (s : State) : complete (.ok s) = .next s := rfl
@[simp] theorem complete_error (r : Fault) : complete (.error r) = .fault r := rfl
@[simp] theorem complete_raise (r : Fault) : complete (raise r) = .fault r := rfl

@[simp] theorem complete_eq_next {e : Except Fault State} {t : State} : complete e = .next t ↔ e = .ok t := by
  cases e <;> simp [complete]

@[simp] theorem complete_eq_fault {e : Except Fault State} {r : Fault} : complete e = .fault r ↔ e = .error r := by
  cases e <;> simp [complete]

@[simp] theorem complete_ne_refused (e : Except Fault State) (r : Refusal) : complete e ≠ .refused r := by
  cases e <;> simp [complete]

@[simp] theorem bind_ok {α β : Type} (a : α) (f : α → Except Fault β) : (Except.ok a >>= f) = f a := rfl
@[simp] theorem bind_error {α β : Type} (r : Fault) (f : α → Except Fault β) :
    ((Except.error r : Except Fault α) >>= f) = .error r := rfl
@[simp] theorem bind_raise {α β : Type} (r : Fault) (f : α → Except Fault β) :
    ((raise r : Except Fault α) >>= f) = .error r := rfl
@[simp] theorem raise_eq {α : Type} (r : Fault) : (raise r : Except Fault α) = .error r := rfl

/-- A sequence completes exactly when both parts do. -/
theorem bind_eq_ok {α β : Type} {e : Except Fault α} {f : α → Except Fault β} {b : β} :
    (e >>= f) = .ok b ↔ ∃ a, e = .ok a ∧ f a = .ok b := by
  cases e <;> simp

/-- A sequence faults where its first part does, or, that part completed, where its second does. -/
theorem bind_eq_error {α β : Type} {e : Except Fault α} {f : α → Except Fault β} {r : Fault} :
    (e >>= f) = .error r ↔ e = .error r ∨ ∃ a, e = .ok a ∧ f a = .error r := by
  cases e <;> simp

/-! ### RegIdx -/

theorem regIdx_of_lt {k : Nibble} (h : k.toNat < 4) : regIdx k = .ok ⟨k.toNat, h⟩ := by simp [regIdx, h]

theorem regIdx_of_ge {k : Nibble} (h : 4 ≤ k.toNat) : regIdx k = .error (.regIndexOutOfRange k) := by
  simp [regIdx, Nat.not_lt.mpr h]

theorem regIdx_eq_ok {k : Nibble} {d : RegIndex} : regIdx k = .ok d ↔ k.toNat = d.val := by
  unfold regIdx
  split
  · rename_i h
    constructor
    · intro e; cases e; rfl
    · intro e; congr 1; exact Fin.ext e
  · rename_i h
    constructor
    · intro e; cases e
    · intro e; exact absurd (e ▸ d.isLt) h

theorem regIdx_eq_error {k : Nibble} {r : Fault} :
    regIdx k = .error r ↔ 4 ≤ k.toNat ∧ r = .regIndexOutOfRange k := by
  unfold regIdx
  split
  · rename_i h
    constructor
    · intro e; cases e
    · intro e; omega
  · rename_i h
    constructor
    · intro e; cases e; exact ⟨by omega, rfl⟩
    · rintro ⟨_, rfl⟩; rfl

/-! ### The stack slots -/

theorem pushSlot_toNat {sp : Word} (h : sp.toNat < 256) : (pushSlot sp).toNat = 255 - sp.toNat := by
  simp only [pushSlot, BitVec.toNat_ofNat]; omega

theorem topSlot_toNat {sp : Word} (h0 : sp ≠ 0) (h : sp.toNat ≤ 256) : (topSlot sp).toNat = 256 - sp.toNat := by
  have : sp.toNat ≠ 0 := fun e => h0 (BitVec.eq_of_toNat_eq e)
  simp only [topSlot, BitVec.toNat_ofNat]; omega

/-- The slot a push writes is the top slot of the stack after it. -/
theorem topSlot_succ {sp : Word} (h : sp.toNat < 256) : topSlot (sp + 1) = pushSlot sp := by
  apply BitVec.eq_of_toNat_eq
  have h1 : (sp + 1).toNat = sp.toNat + 1 := by
    rw [BitVec.toNat_add, show BitVec.toNat (1 : Word) = 1 from rfl]; omega
  simp only [topSlot, pushSlot, BitVec.toNat_ofNat, h1]

theorem popValue_eq_ok {s t : State} {v : Word} :
    popValue s = .ok (v, t) ↔ s.sp ≠ 0 ∧ v = s.memRead (topSlot s.sp) ∧ t = s.setSp (s.sp - 1) := by
  unfold popValue
  split
  · simp [*]
  · simp only [Except.ok.injEq, Prod.mk.injEq, ne_eq, *, not_false_eq_true, true_and]
    constructor <;> rintro ⟨rfl, rfl⟩ <;> exact ⟨rfl, rfl⟩

theorem popValue_eq_error {s : State} {r : Fault} : popValue s = .error r ↔ s.sp = 0 ∧ r = .stackUnderflow := by
  unfold popValue
  split
  · simp only [raise_eq, Except.error.injEq, *, true_and]; exact eq_comm
  · constructor
    · intro e; cases e
    · intro e; exact absurd e.1 (by assumption)

/-- Where syscall 0's address comes from, and that only `sp` can change on the way (43_syscall.md R131). -/
theorem stringAddr_eq_ok {s t : State} {v : Word} :
    stringAddr s = .ok (v, t) ↔
      (s.cfg.stack = .present ∧ s.sp ≠ 0 ∧ v = s.memRead (topSlot s.sp) ∧ t = s.setSp (s.sp - 1)) ∨
      (s.cfg.stack = .absent ∧ v = s.readReg 0 ∧ t = s) := by
  unfold stringAddr
  split <;> rename_i h
  · simp [h, popValue_eq_ok]
  · simp only [h, Except.ok.injEq, Prod.mk.injEq, reduceCtorEq, false_and, false_or, true_and]
    constructor <;> rintro ⟨rfl, rfl⟩ <;> exact ⟨rfl, rfl⟩

theorem stringAddr_eq_error {s : State} {r : Fault} :
    stringAddr s = .error r ↔ s.cfg.stack = .present ∧ s.sp = 0 ∧ r = .stackUnderflow := by
  unfold stringAddr
  split <;> rename_i h
  · simp [h, popValue_eq_error]
  · simp [h]

end Sys2Proof.Machine
end

