-- ==== Sys2Proof/Laws/Exec.lean ====
section
/-! SUPPORT. One lemma per meaning that says when it completes and in what state, so that no proof unfolds a meaning; and
that no meaning refuses. -/

namespace Sys2Proof.Machine

variable {s t : State}

theorem execLoadi_eq_next {r1 : Nibble} {imm : Byte} :
    execLoadi r1 imm s = .next t ↔ ∃ d : RegIndex, r1.toNat = d.val ∧ t = s.writeReg d (zext16 imm) := by
  simp [execLoadi, bind_eq_ok, regIdx_eq_ok, @eq_comm _ t]

theorem execAdd_eq_next {r1 r2 r3 : Nibble} :
    execAdd r1 r2 r3 s = .next t ↔ ∃ d a b : RegIndex, r1.toNat = d.val ∧ r2.toNat = a.val ∧ r3.toNat = b.val ∧
      t = s.writeReg d (alu .add (s.readReg a) (s.readReg b) 0) := by
  simp [execAdd, bind_eq_ok, regIdx_eq_ok, @eq_comm _ t]

theorem execShr_eq_next {r1 r2 r3 : Nibble} :
    execShr r1 r2 r3 s = .next t ↔ ∃ d a : RegIndex, r1.toNat = d.val ∧ r2.toNat = a.val ∧
      t = s.writeReg d (alu .shr (s.readReg a) 0 r3) := by
  simp [execShr, bind_eq_ok, regIdx_eq_ok, @eq_comm _ t]

theorem execShl_eq_next {r1 r2 r3 : Nibble} :
    execShl r1 r2 r3 s = .next t ↔ ∃ d a : RegIndex, r1.toNat = d.val ∧ r2.toNat = a.val ∧
      t = s.writeReg d (alu .shl (s.readReg a) 0 r3) := by
  simp [execShl, bind_eq_ok, regIdx_eq_ok, @eq_comm _ t]

theorem execLoad_eq_next {r1 : Nibble} {imm : Byte} :
    execLoad r1 imm s = .next t ↔ ∃ d : RegIndex, r1.toNat = d.val ∧ t = s.writeReg d (s.memRead imm) := by
  simp [execLoad, bind_eq_ok, regIdx_eq_ok, @eq_comm _ t]

theorem execStore_eq_next {r1 : Nibble} {imm : Byte} :
    execStore r1 imm s = .next t ↔ ∃ a : RegIndex, r1.toNat = a.val ∧ t = s.memWrite imm (s.readReg a) := by
  simp [execStore, bind_eq_ok, regIdx_eq_ok, @eq_comm _ t]

/-- Everything a completed print string did: the address source, the range, the scan, the bytes appended (R134). -/
theorem printString_eq_ok :
    printString s = .ok t ↔ ∃ addr u bs, stringAddr s = .ok (addr, u) ∧ addr.toNat ≤ 255 ∧
      scanString u.mem (256 - addr.toNat) addr.toNat = some bs ∧ t = u.emit bs := by
  simp only [printString, bind_eq_ok, Prod.exists]
  constructor
  · rintro ⟨addr, u, h, hf⟩
    split at hf
    · cases hf
    · split at hf
      · cases hf
      · rename_i hle _ bs hs
        cases hf
        exact ⟨addr, u, bs, h, by omega, hs, rfl⟩
  · rintro ⟨addr, u, bs, h, hle, hs, rfl⟩
    refine ⟨addr, u, h, ?_⟩
    rw [if_neg (by omega), hs]

theorem execSyscall_eq_next {imm : Byte} :
    execSyscall imm s = .next t ↔ (imm = 0 ∧ printString s = .ok t) ∨ (imm ≠ 0 ∧ t = s) := by
  unfold execSyscall
  split
  · simp [*]
  · simp only [Host.Outcome.next.injEq, *, false_and, ne_eq, not_false_eq_true, true_and, false_or]; exact eq_comm

theorem execPush_eq_next {r1 : Nibble} :
    execPush r1 s = .next t ↔
      (s.cfg.stack = .absent ∧ t = s) ∨
      (s.cfg.stack = .present ∧ ∃ a : RegIndex, r1.toNat = a.val ∧ s.sp ≠ 256 ∧
        t = (s.setSp (s.sp + 1)).memWrite (pushSlot s.sp) (s.readReg a)) := by
  unfold execPush
  split <;> rename_i h
  · simp [h, @eq_comm _ t]
  · simp only [h, complete_eq_next, bind_eq_ok, regIdx_eq_ok, reduceCtorEq, false_and, false_or, true_and]
    refine exists_congr fun a => and_congr_right fun _ => ?_
    split
    · simp [*]
    · simp only [Except.ok.injEq, ne_eq, *, not_false_eq_true, true_and, @eq_comm _ t]

theorem execPop_eq_next {r1 : Nibble} :
    execPop r1 s = .next t ↔
      (s.cfg.stack = .absent ∧ t = s) ∨
      (s.cfg.stack = .present ∧ ∃ d : RegIndex, r1.toNat = d.val ∧ s.sp ≠ 0 ∧
        t = (s.setSp (s.sp - 1)).writeReg d (s.memRead (topSlot s.sp))) := by
  unfold execPop
  split <;> rename_i h
  · simp [h, @eq_comm _ t]
  · simp only [h, complete_eq_next, bind_eq_ok, regIdx_eq_ok, reduceCtorEq, false_and, false_or, true_and,
      Prod.exists, popValue_eq_ok, Except.ok.injEq]
    constructor
    · rintro ⟨d, hd, v, u, ⟨hs, rfl, rfl⟩, rfl⟩; exact ⟨d, hd, hs, rfl⟩
    · rintro ⟨d, hd, hs, rfl⟩; exact ⟨d, hd, _, _, ⟨hs, rfl, rfl⟩, rfl⟩

theorem execJump_eq_next {imm : Byte} :
    execJump imm s = .next t ↔
      (s.cfg.stack = .absent ∧ t = s) ∨ (s.cfg.stack = .present ∧ t = s.setPc (zext16 imm)) := by
  unfold execJump
  split <;> rename_i h <;> simp [h, @eq_comm _ t]

/-! ### What an instruction and a step can do, said once -/

/-- Every way an instruction's body can complete: nothing happens; HALT; one register written by LOADI, LOAD, ADD, SHR or
SHL; STORE; syscall 0, after the pop where there is one; PUSH; POP; JUMP. -/
theorem exec_next_cases {i : Instr} (h : exec i s = .next t) :
    t = s ∨
    (∃ r1 imm, i = .halt r1 imm ∧ t = s.clearRunning) ∨
    (∃ (d : RegIndex) (r1 : Nibble) (v : Word), r1.toNat = d.val ∧ t = s.writeReg d v ∧
      ((∃ imm, i = .loadi r1 imm ∨ i = .load r1 imm) ∨
       ∃ r2 r3, i = .add r1 r2 r3 ∨ i = .shr r1 r2 r3 ∨ i = .shl r1 r2 r3)) ∨
    (∃ r1 imm v, i = .store r1 imm ∧ t = s.memWrite imm v) ∨
    (∃ r1 u addr bs, i = .syscall r1 0 ∧ t = u.emit bs ∧ scanString s.mem (256 - addr) addr = some bs ∧
      (s.cfg.stack = .absent ∧ u = s ∨ s.cfg.stack = .present ∧ s.sp ≠ 0 ∧ u = s.setSp (s.sp - 1))) ∨
    (∃ r1 imm v, i = .push r1 imm ∧ s.cfg.stack = .present ∧ s.sp ≠ 256 ∧
      t = (s.setSp (s.sp + 1)).memWrite (pushSlot s.sp) v) ∨
    (∃ (d : RegIndex) (r1 : Nibble) (imm : Byte) (v : Word), i = .pop r1 imm ∧ r1.toNat = d.val ∧
      s.cfg.stack = .present ∧ s.sp ≠ 0 ∧ t = (s.setSp (s.sp - 1)).writeReg d v) ∨
    (∃ r1 imm, i = .jump r1 imm ∧ s.cfg.stack = .present ∧ t = s.setPc (zext16 imm)) := by
  cases i <;> simp only [exec] at h
  case nop => cases h; simp
  case halt => cases h; simp
  case unassigned => cases h; simp
  case loadi r1 imm =>
    obtain ⟨d, hd, rfl⟩ := execLoadi_eq_next.mp h
    exact .inr (.inr (.inl ⟨d, r1, _, hd, rfl, by simp⟩))
  case load r1 imm =>
    obtain ⟨d, hd, rfl⟩ := execLoad_eq_next.mp h
    exact .inr (.inr (.inl ⟨d, r1, _, hd, rfl, by simp⟩))
  case store =>
    obtain ⟨d, -, rfl⟩ := execStore_eq_next.mp h
    exact .inr (.inr (.inr (.inl ⟨_, _, _, rfl, rfl⟩)))
  case add r1 _ _ =>
    obtain ⟨d, _, _, hd, _, _, rfl⟩ := execAdd_eq_next.mp h
    exact .inr (.inr (.inl ⟨d, r1, _, hd, rfl, by simp⟩))
  case shr r1 _ _ =>
    obtain ⟨d, _, hd, _, rfl⟩ := execShr_eq_next.mp h
    exact .inr (.inr (.inl ⟨d, r1, _, hd, rfl, by simp⟩))
  case shl r1 _ _ =>
    obtain ⟨d, _, hd, _, rfl⟩ := execShl_eq_next.mp h
    exact .inr (.inr (.inl ⟨d, r1, _, hd, rfl, by simp⟩))
  case syscall r1 imm =>
    rcases execSyscall_eq_next.mp h with ⟨rfl, hp⟩ | ⟨-, rfl⟩
    · obtain ⟨addr, u, bs, ha, -, hs, rfl⟩ := printString_eq_ok.mp hp
      refine .inr (.inr (.inr (.inr (.inl ⟨r1, u, addr.toNat, bs, rfl, rfl, ?_⟩))))
      rcases stringAddr_eq_ok.mp ha with ⟨h1, h2, -, rfl⟩ | ⟨h1, -, rfl⟩
      · exact ⟨by simpa using hs, .inr ⟨h1, h2, rfl⟩⟩
      · exact ⟨hs, .inl ⟨h1, rfl⟩⟩
    · exact .inl rfl
  case push =>
    rcases execPush_eq_next.mp h with ⟨-, rfl⟩ | ⟨hp, _, -, hne, rfl⟩
    · exact .inl rfl
    · exact .inr (.inr (.inr (.inr (.inr (.inl ⟨_, _, _, rfl, hp, hne, rfl⟩)))))
  case pop r1 _ =>
    rcases execPop_eq_next.mp h with ⟨-, rfl⟩ | ⟨hp, d, hd, hne, rfl⟩
    · exact .inl rfl
    · exact .inr (.inr (.inr (.inr (.inr (.inr (.inl ⟨d, r1, _, _, rfl, hd, hp, hne, rfl⟩))))))
  case jump =>
    rcases execJump_eq_next.mp h with ⟨-, rfl⟩ | ⟨hp, rfl⟩
    · exact .inl rfl
    · exact .inr (.inr (.inr (.inr (.inr (.inr (.inr ⟨_, _, rfl, hp, rfl⟩))))))

/-- A fetch gives a word exactly where the address is a code address. -/
theorem fetch_eq_ok {a w : Word} :
    s.fetch a = .ok w ↔ a.toNat < s.codeSize ∧
      w = match s.cfg.layout with
        | .unified => s.mem.read a.toNat
        | .split => s.code.getD a.toNat 0 := by
  unfold State.fetch
  cases s.cfg.layout <;> split <;> simp [*, @eq_comm _ w]

/-- A step that completes: a Halted instance unchanged, or the body of the fetched instruction after the PC advance. -/
theorem step_eq_next :
    step s = .next t ↔ (s.running = false ∧ t = s) ∨
      (s.running = true ∧ ∃ w, s.fetch s.pc = .ok w ∧ exec (decode w) s.advancePc = .next t) := by
  unfold step
  cases hr : s.running
  · simp [@eq_comm _ t]
  · cases hf : s.fetch s.pc <;> simp

end Sys2Proof.Machine
end

