-- ==== Sys2Proof/Laws/PerInstr.lean ====
section
/-! SUPPORT. Families of lemmas, one per constructor of Instr. OpcodeNibble: bits 15-12 of an encoded instruction are the
opcode the opcode map gives it (30_encoding.md R61, R63, R68). -/

namespace Sys2Proof.Laws

/-- Bits 15-12 of the second form of `Encode` are its opcode argument (R63). -/
theorem encodeI_opcode (op r1 : Nibble) (imm : Byte) : (fieldsOf (encodeI op r1 imm)).opcode = op := by
  apply BitVec.eq_of_getElem_eq
  intro k hk
  simp only [fieldsOf, encodeI, BitVec.getElem_extractLsb', BitVec.getLsbD_or, BitVec.getLsbD_shiftLeft,
    BitVec.getLsbD_setWidth]
  interval_cases k <;> simp

/-- Bits 15-12 of the first form of `Encode` are its opcode argument (R63). -/
theorem encodeR_opcode (op r1 r2 r3 : Nibble) : (fieldsOf (encodeR op r1 r2 r3)).opcode = op := by
  apply BitVec.eq_of_getElem_eq
  intro k hk
  simp only [fieldsOf, encodeR, BitVec.getElem_extractLsb', BitVec.getLsbD_or, BitVec.getLsbD_shiftLeft,
    BitVec.getLsbD_setWidth]
  interval_cases k <;> simp

namespace OpcodeNibble

def Statement (i : Instr) : Prop := (fieldsOf (encode i)).opcode = i.opcode

theorem nop (r1 : Nibble) (imm : Byte) : Statement (.nop r1 imm) := encodeI_opcode _ _ _
theorem loadi (r1 : Nibble) (imm : Byte) : Statement (.loadi r1 imm) := encodeI_opcode _ _ _
theorem add (r1 r2 r3 : Nibble) : Statement (.add r1 r2 r3) := encodeR_opcode _ _ _ _
theorem shr (r1 r2 r3 : Nibble) : Statement (.shr r1 r2 r3) := encodeR_opcode _ _ _ _
theorem load (r1 : Nibble) (imm : Byte) : Statement (.load r1 imm) := encodeI_opcode _ _ _
theorem store (r1 : Nibble) (imm : Byte) : Statement (.store r1 imm) := encodeI_opcode _ _ _
theorem syscall (r1 : Nibble) (imm : Byte) : Statement (.syscall r1 imm) := encodeI_opcode _ _ _
theorem shl (r1 r2 r3 : Nibble) : Statement (.shl r1 r2 r3) := encodeR_opcode _ _ _ _
theorem halt (r1 : Nibble) (imm : Byte) : Statement (.halt r1 imm) := encodeI_opcode _ _ _
theorem push (r1 : Nibble) (imm : Byte) : Statement (.push r1 imm) := encodeI_opcode _ _ _
theorem pop (r1 : Nibble) (imm : Byte) : Statement (.pop r1 imm) := encodeI_opcode _ _ _
theorem jump (r1 : Nibble) (imm : Byte) : Statement (.jump r1 imm) := encodeI_opcode _ _ _
theorem unassigned (low : BitVec 2) (r1 : Nibble) (imm : Byte) : Statement (.unassigned low r1 imm) :=
  encodeI_opcode _ _ _

end OpcodeNibble

end Sys2Proof.Laws
end

