-- ==== Sys2Proof/Tests/Slice0.lean ====
section
/-! SUPPORT. The model's own tests: the WellFormed smoke test, decoding of words written out from 30_encoding.md, small
single steps whose expected results are rows of 95_test_vectors.md, and for every statement with hypotheses a concrete
state and operands that meet them. -/

namespace Sys2Proof.Tests

open Sys2Proof.Machine Sys2Proof.Claims

/-! ### WellFormed refuses an ill-formed term for each check -/

theorem test_wellFormed_refuses :
    Instr.wellFormed (.loadi 4 0) = false ∧
    Instr.wellFormed (.add 4 0 0) = false ∧ Instr.wellFormed (.add 0 4 0) = false ∧
    Instr.wellFormed (.add 0 0 15) = false ∧
    Instr.wellFormed (.shr 4 0 0) = false ∧ Instr.wellFormed (.shr 0 4 0) = false ∧
    Instr.wellFormed (.shl 4 0 0) = false ∧ Instr.wellFormed (.shl 0 4 0) = false ∧
    Instr.wellFormed (.load 4 0) = false ∧ Instr.wellFormed (.store 4 0) = false ∧
    Instr.wellFormed (.push 4 0) = false ∧ Instr.wellFormed (.pop 4 0) = false := by decide

theorem test_wellFormed_accepts :
    Instr.wellFormed (.nop 15 0xFF) = true ∧ Instr.wellFormed (.loadi 3 0xFF) = true ∧
    Instr.wellFormed (.add 3 3 3) = true ∧ Instr.wellFormed (.shr 3 3 15) = true ∧
    Instr.wellFormed (.shl 3 3 15) = true ∧ Instr.wellFormed (.load 3 0xFF) = true ∧
    Instr.wellFormed (.store 3 0xFF) = true ∧ Instr.wellFormed (.syscall 15 0xFF) = true ∧
    Instr.wellFormed (.halt 15 0xFF) = true ∧ Instr.wellFormed (.push 3 0xFF) = true ∧
    Instr.wellFormed (.pop 3 0xFF) = true ∧ Instr.wellFormed (.jump 15 0xFF) = true ∧
    Instr.wellFormed (.unassigned 3 15 0xFF) = true := by decide

/-! ### Decoding, words written out bit by bit: opcode, r1, r2, r3 (R61, R66, R75) -/

theorem test_decode_bits :
    decode 0b0000_1010_1011_1100#16 = .nop 10 0xBC ∧
    decode 0b0001_0010_0011_0100#16 = .loadi 2 0x34 ∧
    decode 0b0010_0011_0001_0010#16 = .add 3 1 2 ∧
    decode 0b0011_0000_0011_0100#16 = .shr 0 3 4 ∧
    decode 0b0100_0011_0100_0000#16 = .load 3 0x40 ∧
    decode 0b0101_0001_0100_0000#16 = .store 1 0x40 ∧
    decode 0b0110_0000_0000_0101#16 = .syscall 0 5 ∧
    decode 0b0111_0001_0001_1000#16 = .shl 1 1 8 ∧
    decode 0b1000_1111_1111_1111#16 = .halt 15 0xFF ∧
    decode 0b1001_0011_0001_0010#16 = .push 3 0x12 ∧
    decode 0b1010_0011_0000_0000#16 = .pop 3 0 ∧
    decode 0b1011_0111_0000_0000#16 = .jump 7 0 ∧
    decode 0b1101_0001_0010_0011#16 = .unassigned 1 1 0x23 := by decide

/-- The canonical encodings of R75. -/
theorem test_encode_canonical :
    encode (.nop 0 0) = 0x0000 ∧ encode (.loadi 2 0x34) = 0x1234 ∧ encode (.add 3 1 2) = 0x2312 ∧
    encode (.shr 1 2 15) = 0x312F ∧ encode (.load 3 0x40) = 0x4340 ∧ encode (.store 1 0x40) = 0x5140 ∧
    encode (.syscall 0 5) = 0x6005 ∧ encode (.shl 1 1 8) = 0x7118 ∧ encode (.halt 0 0) = 0x8000 ∧
    encode (.push 2 0) = 0x9200 ∧ encode (.pop 3 0) = 0xA300 ∧ encode (.jump 0 3) = 0xB003 ∧
    encode (.unassigned 0 0 0) = 0xC000 := by decide

theorem test_decode_refuses_by_name :
    (match decodeWords [] with | .error .noWord => true | _ => false) = true ∧
    (match tableWords 17 0 with | .error .notOneWord => true | _ => false) = true ∧
    decodeTableWord 16 0x10000 = none ∧ decodeTableWord 16 0xB003 = some (.jump 0 3) := by decide

/-! ### Small states -/

/-- A Running instance with the given parts. -/
def mk (layout : Layout) (stack : StackOption) (regs : RegFile) (pc sp : Word) (mem : Memory)
    (code : List Word := []) : State :=
  { cfg := ⟨layout, stack⟩, regs := regs, pc := pc, sp := sp, running := true, mem := mem, code := code, out := [] }

/-- A property of the next state; false of a fault. -/
def after (o : StepOutcome) (p : State → Bool) : Bool :=
  match o with
  | .next t => p t
  | .fault _ => false
  | .refused _ => false

/-- The outcome is this fault. -/
def faultIs (o : StepOutcome) (r : Fault) : Bool :=
  match o with
  | .next _ => false
  | .fault q => decide (q = r)
  | .refused _ => false

def present : State := mk .unified .present ⟨1, 2, 3, 4⟩ 7 0 []
def absent : State := mk .unified .absent ⟨1, 2, 3, 4⟩ 7 0 []

/-- A state with one word placed where the next step fetches. -/
def placed (s : State) (w : Nat) : State := s.withFetchWord 16 w

/-! ### One step, expected results from the V-ENG, V-ALU, V-MEM, V-SYS and V-STK tables -/

theorem test_nop : after (step (placed present 0x0ABC)) (fun t => t == { placed present 0x0ABC with pc := 8 }) = true := by
  decide

theorem test_halt : after (step (placed present 0x8FFF)) (fun t => t.pc == 8 && !t.running) = true := by decide

theorem test_unassigned :
    after (step (placed absent 0x9100)) (fun t => t == { placed absent 0x9100 with pc := 8 }) = true ∧
    after (step (placed absent 0xB003)) (fun t => t == { placed absent 0xB003 with pc := 8 }) = true ∧
    after (step (placed absent 0xA5C3)) (fun t => t.pc == 8) = true := by decide

theorem test_unassigned_high : after (step (placed present 0xD123)) (fun t => t.pc == 8) = true := by decide

theorem test_fetch_beyond :
    faultIs (step (mk .unified .present ⟨0, 0, 0, 0⟩ 256 0 [])) (.fetchOutOfRange 256) = true ∧
    faultIs (step (mk .split .present ⟨0, 0, 0, 0⟩ 1 0 [] [0x8000])) (.fetchOutOfRange 1) = true := by decide

theorem test_loadi : after (execLoadi 0 0xFF (mk .split .absent ⟨0x1234, 0, 0, 0⟩ 0 0 [])) (fun t => t.readReg 0 == 0xFF) = true := by
  decide

theorem test_add :
    after (execAdd 0 1 2 (mk .split .absent ⟨9, 0xFFFF, 0xFFFF, 0⟩ 0 0 [])) (fun t => t.readReg 0 == 0xFFFE) = true ∧
    after (execAdd 1 1 1 (mk .split .absent ⟨0, 0x4001, 0, 0⟩ 0 0 [])) (fun t => t.readReg 1 == 0x8002) = true := by decide

theorem test_add_fields :
    faultIs (execAdd 4 5 1 present) (.regIndexOutOfRange 4) = true ∧
    faultIs (execAdd 1 4 5 present) (.regIndexOutOfRange 4) = true ∧
    faultIs (execAdd 0 1 7 present) (.regIndexOutOfRange 7) = true := by decide

theorem test_shr :
    after (execShr 1 2 15 (mk .split .absent ⟨0, 0, 0x8000, 0⟩ 0 0 [])) (fun t => t.readReg 1 == 1) = true ∧
    after (execShr 0 0 4 (mk .split .absent ⟨0xFFFF, 0, 0, 0⟩ 0 0 [])) (fun t => t.readReg 0 == 0x0FFF) = true := by decide

theorem test_shl :
    after (execShl 1 2 15 (mk .split .absent ⟨0, 0, 3, 0⟩ 0 0 [])) (fun t => t.readReg 1 == 0x8000) = true ∧
    after (execShl 3 3 1 (mk .split .absent ⟨0, 0, 0, 0x8001⟩ 0 0 [])) (fun t => t.readReg 3 == 2) = true := by decide

/-- `load x0, [0]` reads itself in `Unified` and the data word in `Split`. -/
theorem test_load :
    after (step (mk .unified .absent ⟨9, 0, 0, 0⟩ 0 0 [(0, 0x4000)])) (fun t => t.readReg 0 == 0x4000) = true ∧
    after (step (mk .split .absent ⟨9, 0, 0, 0⟩ 0 0 [] [0x4000, 0x8000])) (fun t => t.readReg 0 == 0) = true := by decide

theorem test_store :
    after (execStore 1 0x40 (mk .split .absent ⟨0, 0x1234, 0, 0⟩ 0 0 [(0x41, 5)]))
      (fun t => t.mem == [(0x40, 0x1234), (0x41, 5)]) = true ∧
    faultIs (execStore 4 0x40 present) (.regIndexOutOfRange 4) = true := by decide

/-- Storing 0 removes the entry: memory stays canonical. -/
theorem test_store_zero :
    after (execStore 0 0x40 (mk .split .absent ⟨0, 0, 0, 0⟩ 0 0 [(0x40, 7), (0x41, 5)])) (fun t => t.mem == [(0x41, 5)]) = true := by
  decide

theorem test_print_absent :
    after (execSyscall 0 (mk .split .absent ⟨3, 0, 0, 0⟩ 0 0 [(3, 0x6948)])) (fun t => t.out == [0x48, 0x69] && t.readReg 0 == 3) = true ∧
    after (execSyscall 0 (mk .split .absent ⟨8, 0, 0, 0⟩ 0 0 [(8, 0x4100)])) (fun t => t.out == []) = true ∧
    faultIs (execSyscall 0 (mk .split .absent ⟨0xFF, 0, 0, 0⟩ 0 0 [(255, 0x4141)])) (.stringUnterminated 255) = true := by decide

theorem test_print_present :
    after (execSyscall 0 (mk .split .present ⟨0, 0, 0, 0⟩ 0 1 [(3, 0x6948), (255, 3)]))
      (fun t => t.out == [0x48, 0x69] && t.sp == 0 && t.memRead 255 == 3) = true ∧
    faultIs (execSyscall 0 present) .stackUnderflow = true ∧
    after (execSyscall 5 (mk .split .present ⟨0, 0, 0, 0⟩ 0 2 [])) (fun t => t.sp == 2) = true := by decide

theorem test_push :
    after (execPush 0 (mk .split .present ⟨5, 0, 0, 0⟩ 0 255 [])) (fun t => t.sp == 256 && t.mem == [(0, 5)]) = true ∧
    faultIs (execPush 0 (mk .split .present ⟨5, 0, 0, 0⟩ 0 256 [])) .stackOverflow = true ∧
    faultIs (execPush 5 (mk .split .present ⟨5, 0, 0, 0⟩ 0 256 [])) (.regIndexOutOfRange 5) = true := by decide

theorem test_pop :
    after (execPop 1 (mk .split .present ⟨5, 0, 0, 0⟩ 0 256 [(0, 0x1111)]))
      (fun t => t.sp == 255 && t.readReg 1 == 0x1111 && t.memRead 0 == 0x1111) = true ∧
    faultIs (execPop 0 present) .stackUnderflow = true := by decide

theorem test_jump :
    after (step (placed present 0xB0FF)) (fun t => t == { placed present 0xB0FF with pc := 255 }) = true ∧
    after (step (placed (mk .split .present ⟨0, 0, 0, 0⟩ 3 0 [] [0, 0, 0, 0, 0]) 0xB010)) (fun t => t.pc == 16) = true := by decide

/-- P5: in `Unified` the store at step 3 is what step 4 fetches. -/
theorem test_self_modifying :
    after (step (mk .unified .absent ⟨0, 0x8000, 0, 0⟩ 2 0 [(2, 0x5103), (3, 0x12FF)]))
      (fun t => after (step t) fun u => !u.running && u.pc == 4) = true := by decide

/-- `withFetchWord` also where `pc` is no code address, and in a Halted instance. -/
theorem test_withFetchWord :
    after (step (placed (mk .unified .present ⟨0, 0, 0, 0⟩ 300 0 []) 0x1234)) (fun t => t.readReg 2 == 0x34 && t.pc == 1) = true ∧
    after (step (placed (mk .split .present ⟨0, 0, 0, 0⟩ 9 0 []) 0x1234)) (fun t => t.readReg 2 == 0x34) = true ∧
    after (step (placed { State.reset with running := false } 0x1234)) (fun t => t.readReg 2 == 0x34) = true := by decide

theorem test_construct :
    (match construct [0x4000, 0, 0x8000] ⟨.unified, .absent⟩ with
      | .ok s => s.mem == [(0, 0x4000), (2, 0x8000)] && s.code == []
      | .error _ => false) = true ∧
    (match construct [0x4000, 0, 0x8000] ⟨.split, .absent⟩ with
      | .ok s => s.mem == [] && s.code == [0x4000, 0, 0x8000] && s.codeSize == 3
      | .error _ => false) = true := by decide

/-! ### Witnesses: every hypothesis list of a statement is met by a concrete state, at boundary values -/

/-- StepRunsTheDecodedInstruction, PcAfterAStep, PlacedInstructionRuns: the last code address of `Unified`. -/
theorem wit_step_runs :
    ∃ s : State, s.running = true ∧ s.cfg.layout = .unified ∧ s.pc.toNat ≤ 255 ∧
      s.mem.read s.pc.toNat = encode (.loadi 2 0x34) ∧ s.fetch s.pc = .ok 0x1234 ∧ ∃ t, step s = .next t :=
  ⟨mk .unified .absent ⟨0, 0, 0, 0⟩ 255 0 [(255, 0x1234)], rfl, rfl, by decide, by decide, rfl, _, rfl⟩

/-- PcAfterAStep, the JUMP clause; JumpSetsPc, second part. -/
theorem wit_step_jump :
    ∃ (s : State) (w : Word), s.running = true ∧ s.cfg.stack = .present ∧ s.fetch s.pc = .ok w ∧
      w &&& 0xF000 = 0xB000 ∧ ∃ t, step s = .next t :=
  ⟨placed present 0xB0FF, 0xB0FF, rfl, rfl, rfl, by decide, _, rfl⟩

/-- FetchReadsTheCodeArray, each clause. -/
theorem wit_fetch :
    (present.cfg.layout = .unified ∧ (255 : Word).toNat ≤ 255 ∧ 256 ≤ (256 : Word).toNat) ∧
    ((mk .split .absent ⟨0, 0, 0, 0⟩ 0 0 [] [5]).cfg.layout = .split ∧
      (mk .split .absent ⟨0, 0, 0, 0⟩ 0 0 [] [5]).code[(0 : Word).toNat]? = some 5 ∧
      (mk .split .absent ⟨0, 0, 0, 0⟩ 0 0 [] [5]).code.length ≤ (1 : Word).toNat) := by decide

/-- StepBeyondTheCodeFaults: `Unified` at 256, `Split` at the empty program's 0. -/
theorem wit_beyond :
    ((mk .unified .absent ⟨0, 0, 0, 0⟩ 256 0 []).running = true ∧
      (mk .unified .absent ⟨0, 0, 0, 0⟩ 256 0 []).codeSize ≤ (mk .unified .absent ⟨0, 0, 0, 0⟩ 256 0 []).pc.toNat) ∧
    (mk .split .absent ⟨0, 0, 0, 0⟩ 0 0 []).codeSize ≤ (mk .split .absent ⟨0, 0, 0, 0⟩ 0 0 []).pc.toNat := by decide

/-- HaltedInstanceKeepsItsState. -/
theorem wit_halted : ∃ s : State, s.running = false := ⟨{ State.reset with running := false }, rfl⟩

/-- NopOnlyAdvancesPc: a NOP word with every ignored bit set, and the zero word at 255. -/
theorem wit_nop :
    ((placed present 0x0FFF).running = true ∧ (0x0FFF : Word) &&& 0xF000 = 0x0000) ∧
    (mk .unified .absent ⟨0, 0, 0, 0⟩ 255 0 []).mem.read 255 = 0 := by decide

theorem wit_nop_fetch : (placed present 0x0FFF).fetch (placed present 0x0FFF).pc = .ok 0x0FFF := rfl

/-- UnassignedOpcodesAreNoOps: the ends of 12..15, and 9, 10, 11 with `STACK = Absent`. -/
theorem wit_unassigned :
    (0xC000 : Word) &&& 0xC000 = 0xC000 ∧ (0xFFFF : Word) &&& 0xC000 = 0xC000 ∧ absent.cfg.stack = .absent ∧
    (0x9FFF : Word) &&& 0xF000 = 0x9000 ∧ (0xAFFF : Word) &&& 0xF000 = 0xA000 ∧ (0xBFFF : Word) &&& 0xF000 = 0xB000 ∧
    (placed absent 0xBFFF).running = true := by decide

theorem wit_unassigned_fetch :
    (placed present 0xFFFF).fetch (placed present 0xFFFF).pc = .ok 0xFFFF ∧
    (placed absent 0x9FFF).fetch (placed absent 0x9FFF).pc = .ok 0x9FFF := ⟨rfl, rfl⟩

/-- HaltClearsRunning. -/
theorem wit_halt :
    (placed present 0x8FFF).fetch (placed present 0x8FFF).pc = .ok 0x8FFF ∧ (0x8FFF : Word) &&& 0xF000 = 0x8000 :=
  ⟨rfl, by decide⟩

/-- LOADI, ADD, SHR, SHL, LOAD, STORE: the highest register field; `r3 = 15` as a count. -/
theorem wit_fields : (3 : Nibble).toNat = (3 : RegIndex).val ∧ (0 : Nibble).toNat = (0 : RegIndex).val ∧
    present.mem.wf = true := by decide

/-- RegisterFieldAboveThreeFaults, each clause: 4 is the lowest bad value, 3 the highest good one. -/
theorem wit_bad_fields : 4 ≤ (4 : Nibble).toNat ∧ (3 : Nibble).toNat < 4 ∧ present.cfg.stack = .present := by decide

/-- WellFormedNeverRaisesRegIndex. -/
theorem wit_wellFormed : Instr.wellFormed (.add 3 3 3) = true := by decide

/-- StoreThenLoadRoundTrip, FetchSeesTheStore first clause, MemoryWrittenOnlyByStoreAndPush by STORE. -/
theorem wit_store : ∃ t, exec (.store 3 255) present = .next t ∧ present.mem.wf = true ∧ present.Inv ∧
    present.cfg.layout = .unified ∧ t.memRead 255 ≠ present.memRead 255 := ⟨_, rfl, by decide⟩

/-- FetchSeesTheStore second clause, PushThenPopRestores, MemoryWrittenOnlyByStoreAndPush and
SpWrittenOnlyByStackInstructions by PUSH: from depth 0 and from depth 255. -/
theorem wit_push :
    (∃ t, exec (.push 3 0) present = .next t ∧ present.Inv ∧ present.sp.toNat ≤ 255 ∧ t.sp ≠ present.sp ∧
      t.memRead 255 ≠ present.memRead 255) ∧
    (∃ t, exec (.push 3 0) (mk .unified .present ⟨1, 2, 3, 4⟩ 0 255 []) = .next t ∧ t.sp = 256 ∧
      (mk .unified .present ⟨1, 2, 3, 4⟩ 0 255 []).sp.toNat ≤ 255 ∧
      (mk .unified .present ⟨1, 2, 3, 4⟩ 0 255 []).mem.wf = true) :=
  ⟨⟨_, rfl, by decide⟩, ⟨_, rfl, by decide⟩⟩

/-- FetchSeesTheStore third clause, CodeArrayIsNoOperand, ConfigurationAndCodeArrayNeverChange in `Split`. -/
theorem wit_split : ∃ t, exec (.store 3 0) (mk .split .present ⟨1, 2, 3, 4⟩ 0 0 [] [5]) = .next t ∧
    (mk .split .present ⟨1, 2, 3, 4⟩ 0 0 [] [5]).cfg.layout = .split := ⟨_, rfl, rfl⟩

/-- OtherSyscallNumbersDoNothing. -/
theorem wit_syscall_other : (1 : Byte) ≠ 0 ∧ (255 : Byte) ≠ 0 := by decide

/-- PrintStringFromRegisterZero: the last word of memory, its terminator in the high byte. -/
theorem wit_print_register :
    let s := mk .split .absent ⟨255, 0, 0, 0⟩ 0 0 [(255, 0x0041)]
    s.cfg.stack = .absent ∧ (s.readReg 0).toNat ≤ 255 ∧ FirstZeroByte s.mem (s.readReg 0).toNat 1 := by decide

/-- PrintStringFromTheStack: a full stack, whose top is `M[0]`, and a stack of one word. -/
theorem wit_print_stack :
    (let s := mk .split .present ⟨0, 0, 0, 0⟩ 0 256 [(0, 255), (255, 0x0041)]
     s.cfg.stack = .present ∧ 1 ≤ s.sp.toNat ∧ s.sp.toNat ≤ 256 ∧ (0 : Byte).toNat = 256 - s.sp.toNat ∧
     (s.memRead 0).toNat ≤ 255 ∧ FirstZeroByte s.mem (s.memRead 0).toNat 1) ∧
    (let s := mk .split .present ⟨0, 0, 0, 0⟩ 0 1 [(255, 3)]
     (255 : Byte).toNat = 256 - s.sp.toNat ∧ FirstZeroByte s.mem (s.memRead 255).toNat 0) := by decide

/-- PrintStringFaults, each clause. -/
theorem wit_print_faults :
    (present.cfg.stack = .present ∧ present.sp = 0) ∧
    (let s := mk .split .absent ⟨256, 0, 0, 0⟩ 0 0 []
     s.cfg.stack = .absent ∧ 256 ≤ (s.readReg 0).toNat) ∧
    (let s := mk .split .absent ⟨255, 0, 0, 0⟩ 0 0 [(255, 0x4141)]
     (s.readReg 0).toNat ≤ 255 ∧ ∀ j < 2 * (256 - (s.readReg 0).toNat), streamByte s.mem (s.readReg 0).toNat j ≠ 0) ∧
    (let s := mk .split .present ⟨0, 0, 0, 0⟩ 0 1 [(255, 0x0100)]
     (255 : Byte).toNat = 256 - s.sp.toNat ∧ 256 ≤ (s.memRead 255).toNat) ∧
    (let s := mk .split .present ⟨0, 0, 0, 0⟩ 0 256 [(0, 255), (255, 0x4141)]
     (0 : Byte).toNat = 256 - s.sp.toNat ∧ (s.memRead 0).toNat ≤ 255 ∧
     ∀ j < 2 * (256 - (s.memRead 0).toNat), streamByte s.mem (s.memRead 0).toNat j ≠ 0) := by decide

/-- OnlySyscallZeroEmits, SpWrittenOnlyByStackInstructions by syscall 0. -/
theorem wit_emits : ∃ t, exec (.syscall 0 0) (mk .split .present ⟨0, 0, 0, 0⟩ 0 1 [(3, 0x6948), (255, 3)]) = .next t ∧
    (mk .split .present ⟨0, 0, 0, 0⟩ 0 1 [(3, 0x6948), (255, 3)]).Inv ∧ t.out = [0x48, 0x69] ∧ t.sp = 0 :=
  ⟨_, rfl, by decide⟩

/-- PopReadsTheTopSlot: depth 256 and depth 1; RegistersWrittenOnlyAsDestinations by POP. -/
theorem wit_pop :
    (let s := mk .split .present ⟨0, 0, 0, 0⟩ 0 256 [(0, 9)]
     s.cfg.stack = .present ∧ 1 ≤ s.sp.toNat ∧ s.sp.toNat ≤ 256 ∧ (0 : Byte).toNat = 256 - s.sp.toNat) ∧
    (let s := mk .split .present ⟨0, 0, 0, 0⟩ 0 1 [(255, 9)]
     1 ≤ s.sp.toNat ∧ (255 : Byte).toNat = 256 - s.sp.toNat) := by decide

/-- StackOverflowAndUnderflowFault, each clause. -/
theorem wit_stack_faults :
    (mk .split .present ⟨0, 0, 0, 0⟩ 0 256 []).sp = 256 ∧ present.sp = 0 ∧ (3 : Nibble).toNat < 4 ∧
    4 ≤ (4 : Nibble).toNat ∧ present.cfg.stack = .present := by decide

/-- PushThenPopRestores: the state after the push is one such state, and so is one with another register and `pc`. -/
theorem wit_push_pop : ∃ t, exec (.push 1 0) present = .next t ∧ present.mem.wf = true ∧ present.sp.toNat ≤ 256 ∧
    (t.setPc 9).cfg = t.cfg ∧ (t.setPc 9).sp = t.sp ∧ (t.setPc 9).memRead 255 = t.memRead 255 := ⟨_, rfl, by decide⟩

/-- JumpBeyondSplitCodeFaultsAtTheNextFetch: a target exactly at `CODE_SIZE`. -/
theorem wit_jump_beyond :
    let s := mk .split .present ⟨0, 0, 0, 0⟩ 0 0 [] [0xB005, 0, 0, 0, 0]
    s.running = true ∧ s.cfg = ⟨.split, .present⟩ ∧ (0xB005 : Word) &&& 0xF000 = 0xB000 ∧
      s.code.length ≤ ((0xB005 : Word) &&& 0x00FF).toNat := by decide

theorem wit_jump_beyond_fetch :
    (mk .split .present ⟨0, 0, 0, 0⟩ 0 0 [] [0xB005, 0, 0, 0, 0]).fetch 0 = .ok 0xB005 := rfl

/-- JumpBeyondSplitCodeFaultsAtTheNextFetch, second part; PcAdvanceNeverWraps, fourth part: the V-STK row `jump 16` with
CODE_SIZE 5. -/
theorem wit_jump_past :
    ∃ t, step (mk .split .present ⟨0, 0, 0, 0⟩ 0 0 [] [0xB010, 0, 0, 0, 0]) = .next t ∧ t.pc = 16 ∧
      t.codeSize < t.pc.toNat ∧ t.Inv := ⟨_, rfl, by decide⟩

/-- PcAdvanceNeverWraps, second part: a Halted instance whose `pc` is exactly `CODE_SIZE`, and the last address of the
longest `Unified` program for the first part (wit_step_runs). -/
theorem wit_pc_at_code_size :
    let s := { mk .split .absent ⟨0, 0, 0, 0⟩ 1 0 [] [0x8000] with running := false }
    s.Inv ∧ s.pc.toNat = s.codeSize ∧ after (step s) (fun t => t == s) = true := by decide

/-- PcAdvanceNeverWraps, third part: the program `[0x8000]` in `Split` never faults, and ends with `pc = CODE_SIZE`. -/
theorem wit_never_faults : ∃ s t, construct [0x8000] ⟨.split, .absent⟩ = .ok s ∧ NeverFaults s ∧
    Host.Core.run Sys2Proof.core 1 s = .next t ∧ t.pc.toNat = t.codeSize := by
  refine ⟨_, _, rfl, ?_, rfl, rfl⟩
  rintro (_ | _ | n) t r <;> exact fun h => nomatch h

/-- The invariant refuses a `pc` beyond the code where no JUMP can have set it. -/
theorem test_inv_refuses :
    ¬(mk .split .absent ⟨0, 0, 0, 0⟩ 16 0 [] [0, 0, 0, 0, 0]).Inv ∧
    ¬(mk .unified .present ⟨0, 0, 0, 0⟩ 257 0 []).Inv ∧
    ¬{ mk .split .present ⟨0, 0, 0, 0⟩ 16 0 [] [0, 0, 0, 0, 0] with running := false }.Inv := by decide

/-- RegistersWrittenOnlyAsDestinations, RunningWrittenOnlyByHalt: a register and the flag do change. -/
theorem wit_writes :
    (∃ t, exec (.loadi 3 9) present = .next t ∧ t.readReg 3 ≠ present.readReg 3) ∧
    (∃ t, exec (.halt 0 0) present = .next t ∧ t.running ≠ present.running) :=
  ⟨⟨_, rfl, by decide⟩, ⟨_, rfl, by decide⟩⟩

/-- PcIsNoOperand, CodeArrayIsNoOperand: an instruction that faults, one that completes, and a JUMP. -/
theorem wit_operands :
    exec (.add 4 0 0) present = .fault (.regIndexOutOfRange 4) ∧
    (∃ t, exec (.add 0 0 0) present = .next t) ∧ ∃ t, exec (.jump 0 3) present = .next t :=
  ⟨rfl, ⟨_, rfl⟩, ⟨_, rfl⟩⟩

/-- FaultsOnlyAsTheTableSays: each of the five reasons of a body is raised; the two string faults also from the stack. -/
theorem wit_faults :
    faultIs (exec (.loadi 4 0) present) (.regIndexOutOfRange 4) = true ∧
    faultIs (exec (.push 0 0) (mk .split .present ⟨0, 0, 0, 0⟩ 0 256 [])) .stackOverflow = true ∧
    faultIs (exec (.pop 0 0) present) .stackUnderflow = true ∧
    faultIs (exec (.syscall 0 0) (mk .split .absent ⟨256, 0, 0, 0⟩ 0 0 [])) (.syscallAddrOutOfRange 256) = true ∧
    faultIs (exec (.syscall 0 0) (mk .split .absent ⟨255, 0, 0, 0⟩ 0 0 [(255, 0x4141)])) (.stringUnterminated 255) = true ∧
    faultIs (exec (.syscall 0 0) (mk .split .present ⟨0, 0, 0, 0⟩ 0 1 [(255, 0x0100)])) (.syscallAddrOutOfRange 256) = true ∧
    faultIs (exec (.syscall 0 0) (mk .split .present ⟨0, 0, 0, 0⟩ 0 256 [(0, 255), (255, 0x4141)]))
      (.stringUnterminated 255) = true := by
  decide

/-- EqualReadsAreEqualMemories. -/
theorem wit_memories : Memory.wf [(0, 5), (255, 7)] = true := by decide

/-- ValuesAfterConstruction, ConstructionIsRstThenLoad: the longest program of each layout. -/
theorem wit_construct :
    (List.replicate 256 (0x8000 : Word)).length ≤ Config.maxProgramWords .unified ∧
    (List.replicate 65535 (0x8000 : Word)).length ≤ Config.maxProgramWords .split := by
  rw [List.length_replicate, List.length_replicate]; decide

/-- InvariantHoldsAfterConstruction, EveryStepKeepsTheInvariant, EveryReachableStateMeetsTheInvariant,
PcAdvanceNeverWraps, BlocksImplementTheStep. -/
theorem wit_invariant : ∃ s t, construct [0x1234] ⟨.unified, .present⟩ = .ok s ∧ s.Inv ∧ s.running = true ∧
    s.fetch s.pc = .ok 0x1234 ∧ step s = .next t ∧ Host.Core.run Sys2Proof.core 1 s = .next t :=
  ⟨_, _, rfl, by decide, rfl, rfl, rfl, rfl⟩

/-- BudgetLeavesTheStateOfItsSteps: each of the three ends. -/
theorem wit_budget :
    (∃ t, runBudget 1 State.reset = .budgetSpent t) ∧
    (∃ t r, runBudget 1 (placed State.reset 0xA000) = .faulted t r) ∧
    (∃ t, runBudget 1 (placed State.reset 0x8000) = .halted t) :=
  ⟨⟨_, rfl⟩, ⟨_, _, rfl⟩, ⟨_, rfl⟩⟩

/-- BlocksImplementTheStep: a step that commits, by a JUMP and by the increment; a Halted instance and a faulting step,
which do not. -/
theorem wit_blocks :
    (stepCommit (placed present 0xB0FF) = true ∧ (fetchedFields (placed present 0xB0FF)).opcode = 11) ∧
    (stepCommit (placed present 0x0000) = true ∧ (fetchedFields (placed present 0x0000)).opcode ≠ 11) ∧
    stepCommit { placed present 0xB0FF with running := false } = false ∧
    stepCommit (placed present 0x1400) = false := by decide

/-- A Halted instance's blocks keep `pc` (R89) whatever stands there. -/
theorem test_blocks_halted :
    (clock { placed present 0xB0FF with running := false }).pc = 7 ∧
    blockStep { placed present 0xB0FF with running := false } = .next { placed present 0xB0FF with running := false } :=
  ⟨by decide, rfl⟩

/-- OutputPortDeliversInOrder, first part: as many ready clocks as bytes, and a port with a byte to offer. -/
theorem wit_port : (⟨[1, 2], []⟩ : OutPort).pending.length ≤ [true, false, true].count true ∧
    (⟨[1, 2], []⟩ : OutPort).pending = 1 :: [2] := by decide

/-- A Running instance whose next step prints "Hi" (V-SYS). -/
def printing : State := mk .split .absent ⟨3, 0, 0, 0⟩ 0 0 [(3, 0x6948)] [0x6000, 0x8000]

/-- OutputPortDeliversInOrder, second part: a step with bytes, a faulting one, a Halted instance, a syscall number 5. -/
theorem wit_port_step :
    ((outPort printing).pending = [0x48, 0x69] ∧ after (step printing) (fun t => t.out == [0x48, 0x69]) = true) ∧
    faultIs (step (mk .split .absent ⟨256, 0, 0, 0⟩ 0 0 [] [0x6000])) (.syscallAddrOutOfRange 256) = true ∧
    ({ printing with running := false } : State).running = false ∧ (0x6005 : Word) &&& 0xF0FF ≠ 0x6000 := by decide

/-- OutputPortDeliversInOrder, third and fourth parts: a byte pending, and none before a step and before a fault. -/
theorem wit_hardware :
    (⟨printing, [0x48]⟩ : Hardware).pending ≠ [] ∧ (⟨printing, []⟩ : Hardware).pending = [] ∧
    ∃ g, (⟨printing, []⟩ : Hardware).clock true = .next g ∧ g.core.out = [] ∧ g.core.pc = 1 ∧
      g.port.byte = some 0x48 := ⟨by decide, rfl, _, rfl, by decide⟩

/-- The clock in which the host accepts "H" starts no instruction; one in which it does not changes nothing. -/
theorem test_hardware_waits :
    (∃ g, (⟨{ printing with pc := 1 }, [0x48, 0x69]⟩ : Hardware).clock true = .next g ∧ g.core.out = [0x48] ∧
      g.pending = [0x69] ∧ g.core.pc = 1 ∧ g.core.running = true) ∧
    (⟨printing, [0x48]⟩ : Hardware).clock false = .next ⟨printing, [0x48]⟩ := ⟨⟨_, rfl, by decide⟩, rfl⟩

end Sys2Proof.Tests
end

namespace Sys2Proof.Proofs

open Sys2Proof.Machine

/-! ### How a step can end, and what no step touches (00_scope.md R3, R12; 20_memory.md R41) -/

variable {s t : State}

theorem execSyscall_ne_refused (imm : Byte) (r : Refusal) : execSyscall imm s ≠ .refused r := by
  unfold execSyscall
  split
  · exact complete_ne_refused _ r
  · nofun

theorem execPush_ne_refused (r1 : Nibble) (r : Refusal) : execPush r1 s ≠ .refused r := by
  unfold execPush
  split
  · nofun
  · exact complete_ne_refused _ r

theorem execPop_ne_refused (r1 : Nibble) (r : Refusal) : execPop r1 s ≠ .refused r := by
  unfold execPop
  split
  · nofun
  · exact complete_ne_refused _ r

theorem execJump_ne_refused (imm : Byte) (r : Refusal) : execJump imm s ≠ .refused r := by
  unfold execJump
  split <;> nofun

/-- The bodies of the ALU, of LOAD and of STORE end by `complete`, which never refuses; the other bodies end so or in a
next state. -/
theorem exec_ne_refused (i : Instr) (r : Refusal) : exec i s ≠ .refused r := by
  cases i with
  | nop | halt | unassigned => nofun
  | loadi | add | shr | shl | load | store => exact complete_ne_refused _ r
  | syscall _ imm => exact execSyscall_ne_refused imm r
  | push r1 _ => exact execPush_ne_refused r1 r
  | pop r1 _ => exact execPop_ne_refused r1 r
  | jump _ imm => exact execJump_ne_refused imm r

/-- Neither the configuration nor the code array is written by an instruction that completes. -/
theorem exec_keeps_cfg_code {i : Instr} (h : exec i s = .next t) : t.cfg = s.cfg ∧ t.code = s.code := by
  obtain rfl | ⟨_, _, -, rfl⟩ | ⟨_, _, _, -, rfl, -⟩ | ⟨_, _, _, -, rfl⟩ |
    ⟨_, _, _, _, -, rfl, -, ⟨-, rfl⟩ | ⟨-, -, rfl⟩⟩ |
    ⟨_, _, _, -, -, -, rfl⟩ | ⟨_, _, _, _, -, -, -, -, rfl⟩ | ⟨_, _, -, -, rfl⟩ := exec_next_cases h
  all_goals exact ⟨rfl, rfl⟩

/-- Settles O13: a step ends at the fetch fault, in the body of the fetched instruction, or, of a Halted instance, in a
next state, and no body refuses. -/
theorem noStepRefuses : Obligations.NoStepRefuses := by
  intro s r
  unfold step
  split
  · split
    · nofun
    · exact exec_ne_refused _ r
  · nofun

/-- Settles O43: a Halted instance is unchanged; of a Running one, the PC advance and the body keep both. -/
theorem configurationAndCodeArrayNeverChange : Obligations.ConfigurationAndCodeArrayNeverChange := by
  intro s t h
  obtain ⟨-, rfl⟩ | ⟨-, w, -, hexec⟩ := step_eq_next.mp h
  · exact ⟨rfl, rfl⟩
  · simpa using exec_keeps_cfg_code hexec

end Sys2Proof.Proofs

namespace Sys2Proof.Proofs

open Sys2Proof.Machine

variable {s t : State}

/-! ### The ways an instruction completes, by name -/

/-- The cases of `exec_next_cases`, named: `Completion s i t` says that `i`, run in `s`, can complete in `t`. -/
inductive Completion (s : State) : Instr → State → Prop where
  | unchanged (i : Instr) : Completion s i s
  | halt (r1 : Nibble) (imm : Byte) : Completion s (.halt r1 imm) s.clearRunning
  | writeReg {i : Instr} (d : RegIndex) (r1 : Nibble) (v : Word) (hd : r1.toNat = d.val)
      (hi : (∃ imm, i = .loadi r1 imm ∨ i = .load r1 imm) ∨
        ∃ r2 r3, i = .add r1 r2 r3 ∨ i = .shr r1 r2 r3 ∨ i = .shl r1 r2 r3) :
      Completion s i (s.writeReg d v)
  | store (r1 : Nibble) (imm : Byte) (v : Word) : Completion s (.store r1 imm) (s.memWrite imm v)
  | printFromRegister (r1 : Nibble) (addr : Nat) (bs : List Byte) (hstack : s.cfg.stack = .absent)
      (hscan : scanString s.mem (256 - addr) addr = some bs) : Completion s (.syscall r1 0) (s.emit bs)
  | printFromStack (r1 : Nibble) (addr : Nat) (bs : List Byte) (hstack : s.cfg.stack = .present) (hsp : s.sp ≠ 0)
      (hscan : scanString s.mem (256 - addr) addr = some bs) :
      Completion s (.syscall r1 0) ((s.setSp (s.sp - 1)).emit bs)
  | push (r1 : Nibble) (imm : Byte) (v : Word) (hstack : s.cfg.stack = .present) (hsp : s.sp ≠ 256) :
      Completion s (.push r1 imm) ((s.setSp (s.sp + 1)).memWrite (pushSlot s.sp) v)
  | pop (d : RegIndex) (r1 : Nibble) (imm : Byte) (v : Word) (hd : r1.toNat = d.val)
      (hstack : s.cfg.stack = .present) (hsp : s.sp ≠ 0) :
      Completion s (.pop r1 imm) ((s.setSp (s.sp - 1)).writeReg d v)
  | jump (r1 : Nibble) (imm : Byte) (hstack : s.cfg.stack = .present) :
      Completion s (.jump r1 imm) (s.setPc (zext16 imm))

theorem completion_of_exec {i : Instr} (h : exec i s = .next t) : Completion s i t := by
  obtain rfl | ⟨r1, imm, rfl, rfl⟩ | ⟨d, r1, v, hd, rfl, hi⟩ | ⟨r1, imm, v, rfl, rfl⟩ |
    ⟨r1, u, addr, bs, rfl, rfl, hscan, ⟨hstack, rfl⟩ | ⟨hstack, hsp, rfl⟩⟩ | ⟨r1, imm, v, rfl, hstack, hsp, rfl⟩ |
    ⟨d, r1, imm, v, rfl, hd, hstack, hsp, rfl⟩ | ⟨r1, imm, rfl, hstack, rfl⟩ := exec_next_cases h
  · exact .unchanged i
  · exact .halt r1 imm
  · exact .writeReg d r1 v hd hi
  · exact .store r1 imm v
  · exact .printFromRegister r1 addr bs hstack hscan
  · exact .printFromStack r1 addr bs hstack hsp hscan
  · exact .push r1 imm v hstack hsp
  · exact .pop d r1 imm v hd hstack hsp
  · exact .jump r1 imm hstack

/-! ### What each update of the state keeps of the invariant (10_state.md R27, R30; 20_memory.md R40) -/

theorem toNat_add_one {w : Word} (h : w.toNat ≤ 65534) : (w + 1).toNat = w.toNat + 1 := by
  rw [BitVec.toNat_add, show BitVec.toNat (1 : Word) = 1 from rfl]
  omega

theorem toNat_sub_one {w : Word} (h : w ≠ 0) : (w - 1).toNat + 1 = w.toNat := by
  have hpos : w.toNat ≠ 0 := fun e => h (BitVec.eq_of_toNat_eq e)
  have hlt := w.isLt
  rw [BitVec.toNat_sub, show BitVec.toNat (1 : Word) = 1 from rfl]
  omega

theorem zext16_toNat (imm : Byte) : (zext16 imm).toNat = imm.toNat :=
  BitVec.toNat_setWidth_of_le (by decide)

/-- The stack holds at most 256 words (10_state.md R30). -/
theorem sp_le_of_inv (hinv : s.Inv) : s.sp.toNat ≤ 256 := by
  obtain ⟨-, hsp, -⟩ := hinv
  exact hsp

theorem codeSize_of_unified (h : s.cfg.layout = .unified) : s.codeSize = 256 := by simp [State.codeSize, h]

theorem codeSize_of_split (h : s.cfg.layout = .split) : s.codeSize = s.code.length := by simp [State.codeSize, h]

/-- Either array is too short for `pc + 1` to wrap inside it (20_memory.md R43). -/
theorem codeSize_le_of_inv (hinv : s.Inv) : s.codeSize ≤ 65535 := by
  obtain ⟨-, -, -, -, hcode, -⟩ := hinv
  cases hlayout : s.cfg.layout with
  | unified => exact (codeSize_of_unified hlayout).trans_le (by decide)
  | split => exact (codeSize_of_split hlayout).trans_le hcode

theorem pc_add_one_of_fetch {w : Word} (hinv : s.Inv) (hfetch : s.fetch s.pc = .ok w) :
    (s.pc + 1).toNat = s.pc.toNat + 1 ∧ s.pc.toNat + 1 ≤ s.codeSize := by
  obtain ⟨hlt, -⟩ := fetch_eq_ok.mp hfetch
  have hsize := codeSize_le_of_inv hinv
  exact ⟨toNat_add_one (by omega), hlt⟩

/-- A `pc` inside the bound of 10_state.md R27 can be set in every state of the invariant. -/
theorem inv_setPc {p : Word} (hinv : s.Inv) (hp : p.toNat ≤ s.codeSize) : (s.setPc p).Inv := by
  obtain ⟨hmem, hsp, habsent, hunified, hcode, -⟩ := hinv
  exact ⟨hmem, hsp, habsent, hunified, hcode, .inl hp⟩

theorem inv_writeReg (hinv : s.Inv) (d : RegIndex) (v : Word) : (s.writeReg d v).Inv := hinv

theorem inv_emit (hinv : s.Inv) (bs : List Byte) : (s.emit bs).Inv := hinv

theorem inv_memWrite (hinv : s.Inv) (a : Byte) (v : Word) : (s.memWrite a v).Inv := by
  obtain ⟨hmem, hrest⟩ := hinv
  exact ⟨Memory.write_wf a v hmem, hrest⟩

theorem inv_setSp {v : Word} (hinv : s.Inv) (hstack : s.cfg.stack = .present) (hv : v.toNat ≤ 256) :
    (s.setSp v).Inv := by
  obtain ⟨hmem, -, -, hrest⟩ := hinv
  exact ⟨hmem, hv, by simp [hstack], hrest⟩

/-- A Halted instance has no JUMP behind it, so HALT needs the bound itself. -/
theorem inv_clearRunning (hinv : s.Inv) (hpc : s.pc.toNat ≤ s.codeSize) : s.clearRunning.Inv := by
  obtain ⟨hmem, hsp, habsent, hunified, hcode, -⟩ := hinv
  exact ⟨hmem, hsp, habsent, hunified, hcode, .inl hpc⟩

/-- In `Unified` every target is a code address; in `Split` the target may lie beyond the code (44_stack_jump.md R145),
which is the invariant's one exception. -/
theorem inv_setPc_jump (hinv : s.Inv) (hrun : s.running = true) (hstack : s.cfg.stack = .present) (imm : Byte) :
    (s.setPc (zext16 imm)).Inv := by
  have htarget : (zext16 imm).toNat ≤ 255 := by rw [zext16_toNat]; omega
  cases hlayout : s.cfg.layout with
  | unified => exact inv_setPc hinv (by rw [codeSize_of_unified hlayout]; omega)
  | split =>
    obtain ⟨hmem, hsp, habsent, hunified, hcode, -⟩ := hinv
    have hcfg : s.cfg = ⟨.split, .present⟩ := by rw [← hlayout, ← hstack]
    exact ⟨hmem, hsp, habsent, hunified, hcode, .inr ⟨hcfg, hrun, htarget⟩⟩

theorem inv_push (hinv : s.Inv) (hstack : s.cfg.stack = .present) (hne : s.sp ≠ 256) (v : Word) :
    ((s.setSp (s.sp + 1)).memWrite (pushSlot s.sp) v).Inv := by
  have hsp := sp_le_of_inv hinv
  have hlt : s.sp.toNat ≠ 256 := fun e => hne (BitVec.eq_of_toNat_eq e)
  have hsucc := toNat_add_one (w := s.sp) (by omega)
  exact inv_memWrite (inv_setSp hinv hstack (by omega)) _ v

theorem inv_pop (hinv : s.Inv) (hstack : s.cfg.stack = .present) (hne : s.sp ≠ 0) : (s.setSp (s.sp - 1)).Inv := by
  have hsp := sp_le_of_inv hinv
  have hpred := toNat_sub_one hne
  exact inv_setSp hinv hstack (by omega)

/-! ### The invariant along steps and runs -/

theorem exec_keeps_inv {i : Instr} (hinv : s.Inv) (hrun : s.running = true) (hpc : s.pc.toNat ≤ s.codeSize)
    (h : exec i s = .next t) : t.Inv := by
  cases completion_of_exec h with
  | unchanged => exact hinv
  | halt => exact inv_clearRunning hinv hpc
  | writeReg d _ v => exact inv_writeReg hinv d v
  | store _ imm v => exact inv_memWrite hinv imm v
  | printFromRegister _ _ bs => exact inv_emit hinv bs
  | printFromStack _ _ bs hstack hsp => exact inv_emit (inv_pop hinv hstack hsp) bs
  | push _ _ v hstack hsp => exact inv_push hinv hstack hsp v
  | pop d _ _ v _ hstack hsp => exact inv_writeReg (inv_pop hinv hstack hsp) d v
  | jump _ imm hstack => exact inv_setPc_jump hinv hrun hstack imm

theorem step_keeps_inv (hinv : s.Inv) (h : step s = .next t) : t.Inv := by
  obtain ⟨-, rfl⟩ | ⟨hrun, w, hfetch, hexec⟩ := step_eq_next.mp h
  · exact hinv
  · obtain ⟨hsucc, hle⟩ := pc_add_one_of_fetch hinv hfetch
    have hpc : (s.pc + 1).toNat ≤ s.codeSize := hsucc.trans_le hle
    exact exec_keeps_inv (s := s.advancePc) (inv_setPc hinv hpc) hrun hpc hexec

/-- Settles O54: a successful fetch leaves room for the PC advance inside the code, and the body then keeps every
clause. -/
theorem everyStepKeepsTheInvariant : Obligations.EveryStepKeepsTheInvariant :=
  fun _ _ => step_keeps_inv

theorem run_succ_eq_next {n : Nat} :
    Host.Core.run Sys2Proof.core (n + 1) s = .next t ↔
      ∃ u, step s = .next u ∧ Host.Core.run Sys2Proof.core n u = .next t := by
  cases h : step s <;> simp [Host.Core.run, Host.Check.core_step, h]

/-- What every step keeps, every run keeps. -/
theorem run_keeps {p : State → Prop} (hstep : ∀ {s t : State}, p s → step s = .next t → p t) {n : Nat} (hs : p s)
    (h : Host.Core.run Sys2Proof.core n s = .next t) : p t := by
  induction n generalizing s with
  | zero => cases h; exact hs
  | succ n ih =>
    obtain ⟨u, hu, hrun⟩ := run_succ_eq_next.mp h
    exact ih (hstep hs hu) hrun

/-! ### Construction (10_state.md R34; 70_reset_and_hazards.md R181) -/

/-- The instance that construction gives for a program that fits. -/
theorem construct_of_fits {P : List Word} {cfg : Config} (h : P.length ≤ Config.maxProgramWords cfg.layout) :
    construct P cfg =
      .ok { cfg := cfg, regs := ⟨0, 0, 0, 0⟩, pc := 0, sp := 0, running := true,
            mem := initialMemory cfg.layout P, code := initialCode cfg.layout P, out := [] } :=
  if_pos h

/-- Construction refuses a program that does not fit (70_reset_and_hazards.md R182). -/
theorem fits_of_construct {P : List Word} {cfg : Config} (h : construct P cfg = .ok s) :
    P.length ≤ Config.maxProgramWords cfg.layout := by
  by_contra hlong
  rw [construct, if_neg hlong] at h
  cases h

theorem inv_of_construct {P : List Word} {cfg : Config} (h : construct P cfg = .ok s) : s.Inv := by
  have hfits := fits_of_construct h
  rw [construct_of_fits hfits] at h
  cases h
  obtain ⟨layout, stack⟩ := cfg
  cases layout with
  | unified =>
    exact ⟨Memory.ofWords_wf hfits, Nat.zero_le _, fun _ => rfl, fun _ => rfl, Nat.zero_le _, .inl (Nat.zero_le _)⟩
  | split => exact ⟨rfl, Nat.zero_le _, fun _ => rfl, nofun, hfits, .inl (Nat.zero_le _)⟩

theorem get_zeros (k : RegIndex) : RegFile.get ⟨0, 0, 0, 0⟩ k = 0 := by
  fin_cases k <;> rfl

/-- Settles O48: the values are read off the constructed instance; the words of a `Unified` program are where
`Memory.ofWords` put them. -/
theorem valuesAfterConstruction : Obligations.ValuesAfterConstruction := by
  intro P cfg hfits
  refine ⟨_, construct_of_fits hfits, rfl, get_zeros, rfl, rfl, rfl, rfl, ?_, ?_⟩
  · intro hlayout
    refine ⟨fun a => ?_, codeSize_of_unified hlayout⟩
    simp only [State.memRead, initialMemory, hlayout, Memory.read_ofWords P (Nat.zero_le _), Nat.sub_zero]
    split
    · next hlt => exact List.getD_eq_getElem _ _ hlt
    · next hge => exact List.getD_eq_default _ _ (by omega)
  · intro hlayout
    exact ⟨fun a => by simp [State.memRead, initialMemory, hlayout, Memory.read], by simp [initialCode, hlayout],
      (codeSize_of_split hlayout).trans (by simp [initialCode, hlayout])⟩

theorem construct_empty : construct [] ⟨.unified, .present⟩ = .ok State.reset := rfl

/-- Settles O51: construction of the empty program computes to `State.reset`. -/
theorem resetIsAConstruction : Obligations.ResetIsAConstruction :=
  ⟨construct_empty, get_zeros, rfl, rfl, rfl, fun _ => rfl, rfl⟩

/-- Settles O52: `State.reset` is a constructed instance. -/
theorem invariantHoldsAtReset : Obligations.InvariantHoldsAtReset := inv_of_construct construct_empty

/-- Settles O55: construction gives the invariant and every step of the run keeps it. -/
theorem everyReachableStateMeetsTheInvariant : Obligations.EveryReachableStateMeetsTheInvariant :=
  fun _ _ _ _ _ hconstruct hrun => run_keeps step_keeps_inv (inv_of_construct hconstruct) hrun

/-! ### Where a run that never faults keeps pc (10_state.md R27; 60_exceptions.md R162) -/

theorem step_of_halted (h : s.running = false) : step s = .next s := by simp [step, h]

theorem step_of_pc_beyond (hrun : s.running = true) (hpc : s.codeSize ≤ s.pc.toNat) :
    step s = .fault (.fetchOutOfRange s.pc) := by
  simp [step, State.fetch, hrun, Nat.not_lt.mpr hpc]

theorem running_of_step_fault {r : Fault} (h : step s = .fault r) : s.running = true := by
  by_contra hhalted
  rw [step_of_halted (by simpa using hhalted)] at h
  cases h

/-- The invariant's exception for `pc` is a state whose step is the fetch fault (44_stack_jump.md R145). -/
theorem fetch_faults_of_pc_beyond (hinv : s.Inv) (hpc : s.codeSize < s.pc.toNat) :
    s.cfg = ⟨.split, .present⟩ ∧ s.running = true ∧ step s = .fault (.fetchOutOfRange s.pc) := by
  obtain ⟨-, -, -, -, -, hle | ⟨hcfg, hrun, -⟩⟩ := hinv
  · omega
  · exact ⟨hcfg, hrun, step_of_pc_beyond hrun hpc.le⟩

theorem pc_le_of_nonFaulted (hinv : s.Inv) (h : s.NonFaulted) : s.pc.toNat ≤ s.codeSize := by
  by_contra hpc
  obtain ⟨-, -, hfault⟩ := fetch_faults_of_pc_beyond hinv (by omega)
  exact h _ hfault

theorem runBudget_succ_of_next {n : Nat} (hrun : s.running = true) (h : step s = .next t) :
    runBudget (n + 1) s = runBudget n t := by
  simp [runBudget, hrun, h]

theorem runBudget_succ_of_fault {n : Nat} {r : Fault} (h : step s = .fault r) :
    runBudget (n + 1) s = .faulted s r := by
  simp [runBudget, running_of_step_fault h, h]

theorem step_keeps_neverFaults (hs : NeverFaults s) (h : step s = .next t) : NeverFaults t := by
  cases hrun : s.running with
  | false =>
    rw [step_of_halted hrun] at h
    cases h
    exact hs
  | true => exact fun n u r hn => hs (n + 1) u r ((runBudget_succ_of_next hrun h).trans hn)

theorem nonFaulted_of_neverFaults (hs : NeverFaults s) : s.NonFaulted :=
  fun r h => hs 1 s r (runBudget_succ_of_fault h)

/-- Settles O56: above `CODE_SIZE` the step is the fetch fault, so a state whose step does not fault is within the
bound; along a run that never faults both the invariant and the absence of faults are kept. -/
theorem pcAdvanceNeverWraps : Obligations.PcAdvanceNeverWraps := by
  refine ⟨?_, fun _ => pc_le_of_nonFaulted, ?_, fun _ => fetch_faults_of_pc_beyond⟩
  · intro s w hinv hfetch
    obtain ⟨hsucc, -⟩ := pc_add_one_of_fetch hinv hfetch
    exact hsucc
  · intro P cfg s t n hconstruct hnever hrun
    have hinv : t.Inv := run_keeps step_keeps_inv (inv_of_construct hconstruct) hrun
    have hnonFaulted := nonFaulted_of_neverFaults (run_keeps step_keeps_neverFaults hnever hrun)
    exact pc_le_of_nonFaulted hinv hnonFaulted

/-! ### Who writes a register, sp and running (10_state.md R22, R28, R30) -/

/-- Only the destination of a register write can have changed. -/
theorem eq_of_readReg_writeReg_ne {u : State} {k d : RegIndex} {v : Word}
    (h : (u.writeReg d v).readReg k ≠ u.readReg k) : k = d := by
  by_contra hne
  exact h (State.readReg_writeReg_ne u v hne)

/-- Settles O38: of the ways a body completes, only those with a destination register change one, and only that one. -/
theorem registersWrittenOnlyAsDestinations : Obligations.RegistersWrittenOnlyAsDestinations := by
  intro i s t k h hk
  cases completion_of_exec h with
  | writeReg d r1 v hd hi =>
    obtain rfl := eq_of_readReg_writeReg_ne hk
    exact ⟨r1, hd, hi.imp_right .inl⟩
  | pop d r1 imm v hd hstack =>
    obtain rfl : k = d := eq_of_readReg_writeReg_ne (u := s.setSp (s.sp - 1)) hk
    exact ⟨r1, hd, .inr (.inr ⟨hstack, imm, rfl⟩)⟩
  | _ => exact absurd rfl hk

/-- Settles O40: the three ways a body completes with another `sp`; the bound of the invariant keeps PUSH's increment
from wrapping. -/
theorem spWrittenOnlyByStackInstructions : Obligations.SpWrittenOnlyByStackInstructions := by
  intro i s t hinv h hne
  have hle := sp_le_of_inv hinv
  cases completion_of_exec h with
  | printFromStack r1 _ _ hstack hsp => exact ⟨hstack, .inr ⟨.inr ⟨r1, rfl⟩, toNat_sub_one hsp⟩⟩
  | push r1 imm _ hstack => exact ⟨hstack, .inl ⟨r1, imm, rfl, toNat_add_one (by omega)⟩⟩
  | pop _ r1 imm _ _ hstack hsp => exact ⟨hstack, .inr ⟨.inl ⟨r1, imm, rfl⟩, toNat_sub_one hsp⟩⟩
  | _ => exact absurd rfl hne

/-- Settles O41: HALT is the one way a body completes with another `running`. -/
theorem runningWrittenOnlyByHalt : Obligations.RunningWrittenOnlyByHalt := by
  intro i s t h
  cases completion_of_exec h with
  | halt r1 imm => exact ⟨fun _ => ⟨rfl, r1, imm, rfl⟩, fun _ => rfl⟩
  | _ => exact ⟨fun hne => absurd rfl hne, id⟩

/-! ### A part of the state that no body reads (10_state.md R26) -/

/-- The outcome with its next state changed by `f`; a fault stays as it is. -/
def mapNext (f : State → State) : StepOutcome → StepOutcome
  | .next s => .next (f s)
  | .fault r => .fault r
  | .refused r => .refused r

@[simp] theorem mapNext_next (f : State → State) : mapNext f (.next s) = .next (f s) := rfl
@[simp] theorem mapNext_fault (f : State → State) (r : Fault) : mapNext f (.fault r) = .fault r := rfl

theorem complete_map (f : State → State) (e : Except Fault State) :
    complete (f <$> e) = mapNext f (complete e) := by
  cases e <;> rfl

/-- `f` changes only parts of the state that are neither read nor, JUMP apart, written by a body: it keeps what bodies
read and commutes with what they write. -/
structure OffOperands (f : State → State) : Prop where
  cfg (s : State) : (f s).cfg = s.cfg
  regs (s : State) : (f s).regs = s.regs
  sp (s : State) : (f s).sp = s.sp
  mem (s : State) : (f s).mem = s.mem
  writeReg (s : State) (d : RegIndex) (v : Word) : (f s).writeReg d v = f (s.writeReg d v)
  memWrite (s : State) (a : Byte) (v : Word) : (f s).memWrite a v = f (s.memWrite a v)
  setSp (s : State) (v : Word) : (f s).setSp v = f (s.setSp v)
  emit (s : State) (bs : List Byte) : (f s).emit bs = f (s.emit bs)
  clearRunning (s : State) : (f s).clearRunning = f s.clearRunning

theorem offOperands_setPc (p : Word) : OffOperands (·.setPc p) where
  cfg _ := rfl
  regs _ := rfl
  sp _ := rfl
  mem _ := rfl
  writeReg _ _ _ := rfl
  memWrite _ _ _ := rfl
  setSp _ _ := rfl
  emit _ _ := rfl
  clearRunning _ := rfl

namespace OffOperands

variable {f : State → State}

theorem readReg (hf : OffOperands f) (k : RegIndex) : (f s).readReg k = s.readReg k := by
  simp [State.readReg, hf.regs]

theorem memRead (hf : OffOperands f) (a : Byte) : (f s).memRead a = s.memRead a := by
  simp [State.memRead, hf.mem]

theorem popValue_comm (hf : OffOperands f) : popValue (f s) = (fun q => (q.1, f q.2)) <$> popValue s := by
  unfold popValue
  rw [hf.sp, hf.memRead, hf.setSp]
  split <;> rfl

theorem stringAddr_comm (hf : OffOperands f) : stringAddr (f s) = (fun q => (q.1, f q.2)) <$> stringAddr s := by
  unfold stringAddr
  rw [hf.cfg]
  split
  · exact hf.popValue_comm
  · rw [hf.readReg]; rfl

theorem printString_comm (hf : OffOperands f) : printString (f s) = f <$> printString s := by
  unfold printString
  rw [hf.stringAddr_comm]
  cases stringAddr s with
  | error r => rfl
  | ok q =>
    obtain ⟨addr, u⟩ := q
    simp only [Except.map_ok, bind_ok, hf.mem]
    split
    · rfl
    · split
      · rfl
      · rw [hf.emit]; rfl

/-- A body that is no effective JUMP does not see what `f` changes. -/
theorem exec_comm (hf : OffOperands f) {i : Instr}
    (hjump : ¬(s.cfg.stack = .present ∧ ∃ r1 imm, i = .jump r1 imm)) :
    exec i (f s) = mapNext f (exec i s) := by
  cases i with
  | nop | unassigned => rfl
  | halt => exact congrArg _ (hf.clearRunning s)
  | loadi r1 imm =>
    simp only [exec, execLoadi, ← complete_map, map_bind, hf.writeReg, Except.map_ok]
  | add r1 r2 r3 =>
    simp only [exec, execAdd, ← complete_map, map_bind, hf.writeReg, hf.readReg, Except.map_ok]
  | shr r1 r2 r3 =>
    simp only [exec, execShr, ← complete_map, map_bind, hf.writeReg, hf.readReg, Except.map_ok]
  | shl r1 r2 r3 =>
    simp only [exec, execShl, ← complete_map, map_bind, hf.writeReg, hf.readReg, Except.map_ok]
  | load r1 imm =>
    simp only [exec, execLoad, ← complete_map, map_bind, hf.writeReg, hf.memRead, Except.map_ok]
  | store r1 imm =>
    simp only [exec, execStore, ← complete_map, map_bind, hf.memWrite, hf.readReg, Except.map_ok]
  | syscall _ imm =>
    simp only [exec, execSyscall, hf.printString_comm, complete_map]
    split <;> rfl
  | push r1 _ =>
    simp only [exec, execPush, hf.cfg]
    split
    · rfl
    · simp only [← complete_map, map_bind, hf.sp, hf.setSp, hf.memWrite, hf.readReg]
      split <;> rfl
  | pop r1 _ =>
    simp only [exec, execPop, hf.cfg]
    split
    · rfl
    · simp only [← complete_map, hf.popValue_comm, map_bind, bind_map_left, hf.writeReg, Except.map_ok]
  | jump r1 imm =>
    have habsent : s.cfg.stack = .absent := by
      cases hs : s.cfg.stack with
      | absent => rfl
      | present => exact absurd ⟨hs, r1, imm, rfl⟩ hjump
    simp only [exec, execJump, hf.cfg, habsent]; rfl

end OffOperands

/-- An effective JUMP overwrites whatever `pc` held. -/
theorem exec_jump_of_present (hstack : s.cfg.stack = .present) (r1 : Nibble) (imm : Byte) :
    exec (.jump r1 imm) s = .next (s.setPc (zext16 imm)) := by
  simp [exec, execJump, hstack]

/-- Settles O44: a JUMP of a stack configuration overwrites `pc`; every other body commutes with the change of `pc`. -/
theorem pcIsNoOperand : Obligations.PcIsNoOperand := by
  intro i s p
  by_cases hjump : s.cfg.stack = .present ∧ ∃ r1 imm, i = .jump r1 imm
  · obtain ⟨hstack, r1, imm, rfl⟩ := hjump
    have hsame : exec (.jump r1 imm) (s.setPc p) = exec (.jump r1 imm) s := by
      rw [exec_jump_of_present hstack, exec_jump_of_present (s := s.setPc p) hstack]
      rfl
    rw [hsame]
    exact ⟨fun _ h => h, fun _ h => ⟨fun _ => h, fun hno => absurd ⟨hstack, r1, imm, rfl⟩ hno⟩⟩
  · rw [(offOperands_setPc p).exec_comm hjump]
    exact ⟨fun r h => by rw [h, mapNext_fault],
      fun t h => ⟨fun hyes => absurd hyes hjump, fun _ => by rw [h, mapNext_next]⟩⟩

/-! ### Bad register fields (10_state.md R23; 60_exceptions.md R163) -/

theorem complete_regIdx_bind_of_ge {k : Nibble} (h : 4 ≤ k.toNat) (body : RegIndex → Except Fault State) :
    complete (regIdx k >>= body) = .fault (.regIndexOutOfRange k) := by
  rw [regIdx_of_ge h]; rfl

theorem regIdx_bind_of_lt {k : Nibble} (h : k.toNat < 4) (body : RegIndex → Except Fault State) :
    regIdx k >>= body = body ⟨k.toNat, h⟩ := by
  rw [regIdx_of_lt h]; rfl

theorem exec_push_of_bad_field {r1 : Nibble} (hstack : s.cfg.stack = .present) (h : 4 ≤ r1.toNat) (imm : Byte) :
    exec (.push r1 imm) s = .fault (.regIndexOutOfRange r1) := by
  simp only [exec, execPush, hstack]
  exact complete_regIdx_bind_of_ge h _

theorem exec_pop_of_bad_field {r1 : Nibble} (hstack : s.cfg.stack = .present) (h : 4 ≤ r1.toNat) (imm : Byte) :
    exec (.pop r1 imm) s = .fault (.regIndexOutOfRange r1) := by
  simp only [exec, execPop, hstack]
  exact complete_regIdx_bind_of_ge h _

/-- Settles O21: each body checks its register fields in order before anything else, and stops at the first bad one. -/
theorem registerFieldAboveThreeFaults : Obligations.RegisterFieldAboveThreeFaults := by
  intro s r1 r2 r3 imm
  refine ⟨fun h1 => ?_, fun h1 h2 => ?_, fun h1 h2 h3 => ?_⟩
  · exact ⟨complete_regIdx_bind_of_ge h1 _, complete_regIdx_bind_of_ge h1 _, complete_regIdx_bind_of_ge h1 _,
      complete_regIdx_bind_of_ge h1 _, complete_regIdx_bind_of_ge h1 _, complete_regIdx_bind_of_ge h1 _,
      fun hstack => ⟨exec_push_of_bad_field hstack h1 imm, exec_pop_of_bad_field hstack h1 imm⟩⟩
  · simp only [exec, execAdd, execShr, execShl, regIdx_bind_of_lt h1]
    exact ⟨complete_regIdx_bind_of_ge h2 _, complete_regIdx_bind_of_ge h2 _, complete_regIdx_bind_of_ge h2 _⟩
  · simp only [exec, execAdd, regIdx_bind_of_lt h1, regIdx_bind_of_lt h2]
    exact complete_regIdx_bind_of_ge h3 _

end Sys2Proof.Proofs

namespace Sys2Proof.Proofs

open Sys2Proof.Machine

variable {s t : State}

/-! ### The fetch in each layout (20_memory.md R44, R56) -/

theorem fetch_of_unified {a : Word} (hlayout : s.cfg.layout = .unified) (ha : a.toNat ≤ 255) :
    s.fetch a = .ok (s.mem.read a.toNat) := by
  have hin : a.toNat < s.codeSize := by
    rw [codeSize_of_unified hlayout]
    omega
  exact fetch_eq_ok.mpr ⟨hin, by rw [hlayout]⟩

theorem fetch_of_split {a w : Word} (hlayout : s.cfg.layout = .split) (hw : s.code[a.toNat]? = some w) :
    s.fetch a = .ok w := by
  obtain ⟨hlt, -⟩ := List.getElem?_eq_some_iff.mp hw
  have hin : a.toNat < s.codeSize := by rwa [codeSize_of_split hlayout]
  exact fetch_eq_ok.mpr ⟨hin, by simp [hlayout, hw]⟩

theorem fetch_of_beyond {a : Word} (ha : s.codeSize ≤ a.toNat) : s.fetch a = .error (.fetchOutOfRange a) := by
  simp [State.fetch, Nat.not_lt.mpr ha]

/-- In `Split` a fetch depends on the code array alone (20_memory.md R41). -/
theorem fetch_congr_of_split (hlayout : s.cfg.layout = .split) (hcfg : t.cfg = s.cfg) (hcode : t.code = s.code)
    (a : Word) : t.fetch a = s.fetch a := by
  simp [State.fetch, State.codeSize, hcfg, hcode, hlayout]

/-- In `Unified` a written word is fetched at once. -/
theorem fetch_memWrite_same {a : Byte} {b v : Word} (hmem : s.mem.wf = true) (hlayout : s.cfg.layout = .unified)
    (hb : b.toNat = a.toNat) : (s.memWrite a v).fetch b = .ok v := by
  have hle : b.toNat ≤ 255 := by
    rw [hb]
    exact Nat.le_of_lt_succ a.isLt
  have hread : (s.memWrite a v).mem.read b.toNat = v := by
    rw [hb]
    exact Memory.read_write_same _ v hmem
  rw [fetch_of_unified (s := s.memWrite a v) hlayout hle, hread]

/-- Settles O10: an address below `CODE_SIZE` is read in the array of the layout, any other is out of range. -/
theorem fetchReadsTheCodeArray : Obligations.FetchReadsTheCodeArray := by
  intro s a
  refine ⟨fetch_of_unified, fun hlayout ha => ?_, fun _ => fetch_of_split, fun hlayout ha => ?_⟩
  · exact fetch_of_beyond ((codeSize_of_unified hlayout).trans_le ha)
  · exact fetch_of_beyond ((codeSize_of_split hlayout).trans_le ha)

/-- Settles O11: the step of a Running instance begins with the fetch at `pc`. -/
theorem stepBeyondTheCodeFaults : Obligations.StepBeyondTheCodeFaults := fun _ => step_of_pc_beyond

/-- Settles O26: STORE and PUSH end in a write of the word that `Unified` fetches next; no body writes what `Split`
fetches from. -/
theorem fetchSeesTheStore : Obligations.FetchSeesTheStore := by
  refine ⟨?_, ?_, ?_⟩
  · intro s t r1 imm a hmem hlayout ha h
    obtain ⟨d, hd, rfl⟩ := execStore_eq_next.mp h
    obtain rfl : a = d := Fin.ext (ha.symm.trans hd)
    exact fetch_memWrite_same hmem hlayout (zext16_toNat imm)
  · intro s t r1 imm a hmem hlayout hstack hsp ha h
    obtain ⟨habsent, -⟩ | ⟨-, d, hd, -, rfl⟩ := execPush_eq_next.mp h
    · rw [hstack] at habsent
      cases habsent
    · obtain rfl : a = d := Fin.ext (ha.symm.trans hd)
      have hslot : (BitVec.ofNat 16 (255 - s.sp.toNat)).toNat = (pushSlot s.sp).toNat := by
        rw [pushSlot_toNat (by omega), BitVec.toNat_ofNat]
        omega
      exact fetch_memWrite_same (s := s.setSp (s.sp + 1)) hmem hlayout hslot
  · intro s t i a hlayout h
    obtain ⟨hcfg, hcode⟩ := exec_keeps_cfg_code h
    exact fetch_congr_of_split hlayout hcfg hcode a

/-! ### Who writes memory (20_memory.md R46, R47) -/

/-- Only the written word can have changed. -/
theorem eq_of_memRead_memWrite_ne {u : State} {a b : Byte} {v : Word}
    (h : (u.memWrite b v).memRead a ≠ u.memRead a) : a = b := by
  by_contra hne
  exact h (State.memRead_memWrite_ne u v hne)

/-- Settles O39: of the ways a body completes only STORE and PUSH write memory, each one word; the bound of the invariant
and PUSH's own overflow test keep the slot's address from wrapping. -/
theorem memoryWrittenOnlyByStoreAndPush : Obligations.MemoryWrittenOnlyByStoreAndPush := by
  intro i s t a hinv h hne
  cases completion_of_exec h with
  | store r1 imm v =>
    obtain rfl := eq_of_memRead_memWrite_ne hne
    exact .inl ⟨r1, rfl⟩
  | push r1 imm v hstack hsp =>
    obtain rfl : a = pushSlot s.sp := eq_of_memRead_memWrite_ne (u := s.setSp (s.sp + 1)) hne
    have hlt : s.sp.toNat < 256 :=
      lt_of_le_of_ne (sp_le_of_inv hinv) fun heq => hsp (BitVec.eq_of_toNat_eq heq)
    have hslot : (pushSlot s.sp).toNat = 256 - (s.sp.toNat + 1) := by
      rw [pushSlot_toNat hlt]
      omega
    exact .inr ⟨hstack, hslot, r1, imm, rfl⟩
  | _ => exact absurd rfl hne

/-! ### The code array is read by the fetch alone (20_memory.md R41) -/

/-- The same instance with another code array. -/
def withCode (c : List Word) (s : State) : State := { s with code := c }

theorem offOperands_withCode (c : List Word) : OffOperands (withCode c) where
  cfg _ := rfl
  regs _ := rfl
  sp _ := rfl
  mem _ := rfl
  writeReg _ _ _ := rfl
  memWrite _ _ _ := rfl
  setSp _ _ := rfl
  emit _ _ := rfl
  clearRunning _ := rfl

/-- A body neither reads nor writes the code array; JUMP, which writes `pc`, included. -/
theorem exec_withCode (c : List Word) (i : Instr) (s : State) :
    exec i (withCode c s) = mapNext (withCode c) (exec i s) := by
  by_cases hjump : s.cfg.stack = .present ∧ ∃ r1 imm, i = .jump r1 imm
  · obtain ⟨hstack, r1, imm, rfl⟩ := hjump
    rw [exec_jump_of_present hstack, exec_jump_of_present (s := withCode c s) hstack]
    rfl
  · exact (offOperands_withCode c).exec_comm hjump

/-- Settles O45: every body commutes with the change of the code array. -/
theorem codeArrayIsNoOperand : Obligations.CodeArrayIsNoOperand := by
  intro i s c
  refine ⟨fun r h => ?_, fun t h => ?_⟩
  · exact (exec_withCode c i s).trans (by rw [h, mapNext_fault])
  · exact (exec_withCode c i s).trans (by rw [h, mapNext_next]; rfl)

/-! ### Canonical memories (20_memory.md R40; log entry 5) -/

/-- Settles O47: outside 0..255 both read as unlisted, so canonical memories that read alike inside read alike
everywhere. -/
theorem equalReadsAreEqualMemories : Obligations.EqualReadsAreEqualMemories := by
  intro m n hm hn hread
  refine Memory.eq_of_read_eq hm hn fun a => ?_
  by_cases ha : a < 256
  · have hbyte := hread (BitVec.ofNat 8 a)
    rwa [BitVec.toNat_ofNat, Nat.mod_eq_of_lt ha] at hbyte
  · rw [Memory.read_above hm (by omega), Memory.read_above hn (by omega)]

end Sys2Proof.Proofs

namespace Sys2Proof.Proofs

open Sys2Proof.Machine

/-! ### Both forms of `Encode` are concatenations of their fields (30_encoding.md R62, R63)

Seen so, the library's lemmas about `++` and `extractLsb'` say what the encoder and the decoder do. -/

theorem encodeI_eq_append (op r1 : Nibble) (imm : Byte) : encodeI op r1 imm = op ++ r1 ++ imm := by
  have h := BitVec.setWidth_append_append_eq_shiftLeft_setWidth_or (b := op) (b' := r1) (b'' := imm) (w''' := 16)
  rw [BitVec.setWidth_eq] at h
  exact h.symm

/-- `imm = (r2 << 4) | r3` of R62 is a concatenation. -/
theorem append_eq_shiftLeft_or (r2 r3 : Nibble) : r2 ++ r3 = (r2.setWidth 8 <<< 4) ||| r3.setWidth 8 := by
  have h := BitVec.setWidth_append_eq_shiftLeft_setWidth_or (b := r2) (b' := r3) (w'' := 8)
  rwa [BitVec.setWidth_eq] at h

/-- The first form of `Encode` is the second one with `r2` and `r3` seen as `imm` (R62). -/
theorem encodeR_eq_encodeI (op r1 r2 r3 : Nibble) : encodeR op r1 r2 r3 = encodeI op r1 (r2 ++ r3) := by
  have h := BitVec.setWidth_append_append_append_eq_shiftLeft_setWidth_or
    (b := op) (b' := r1) (b'' := r2) (b''' := r3) (w'''' := 16)
  rw [BitVec.setWidth_eq] at h
  rw [encodeI_eq_append]
  exact h.symm.trans BitVec.append_assoc

theorem toNat_append_eq_add {m n : Nat} (x : BitVec m) (y : BitVec n) :
    (x ++ y).toNat = x.toNat * 2 ^ n + y.toNat := by
  rw [BitVec.toNat_append, ← Nat.shiftLeft_add_eq_or_of_lt y.isLt, Nat.shiftLeft_eq]

theorem encodeI_toNat (op r1 : Nibble) (imm : Byte) :
    (encodeI op r1 imm).toNat = op.toNat * 4096 + r1.toNat * 256 + imm.toNat := by
  rw [encodeI_eq_append, toNat_append_eq_add, toNat_append_eq_add]
  omega

theorem encodeR_toNat (op r1 r2 r3 : Nibble) :
    (encodeR op r1 r2 r3).toNat = op.toNat * 4096 + r1.toNat * 256 + r2.toNat * 16 + r3.toNat := by
  rw [encodeR_eq_encodeI, encodeI_toNat, toNat_append_eq_add]
  omega

/-! ### The fields of a word (30_encoding.md R61, R62) -/

/-- Settles O4: a bit extraction is a quotient and a remainder by powers of 2; the quotient that is the opcode is
already below 16. -/
theorem fieldsAreTheBitsOfTheWord : Obligations.FieldsAreTheBitsOfTheWord := by
  intro w
  have hopcode : w.toNat / 4096 < 16 := Nat.div_lt_of_lt_mul w.isLt
  simp only [fieldsOf, BitVec.extractLsb'_toNat, Nat.shiftRight_eq_div_pow, Nat.reducePow, Nat.div_one,
    Nat.mod_eq_of_lt hopcode, and_self]

theorem fieldsOf_imm (w : Word) : (fieldsOf w).imm = (fieldsOf w).r2 ++ (fieldsOf w).r3 :=
  (BitVec.extractLsb'_append_extractLsb'_eq_extractLsb' (x := w) (start₁ := 0) (len₁ := 4) (len₂ := 4) rfl).symm

/-- Settles O3: `imm` is the concatenation of `r2` and `r3`. -/
theorem immIsTheViewOfR2AndR3 : Obligations.ImmIsTheViewOfR2AndR3 := by
  intro w
  have hr3 : (fieldsOf w).r3.toNat < 16 := (fieldsOf w).r3.isLt
  have himm : (fieldsOf w).imm.toNat = (fieldsOf w).r2.toNat * 16 + (fieldsOf w).r3.toNat := by
    rw [fieldsOf_imm]
    exact toNat_append_eq_add _ _
  omega

/-! ### Fields of an encoding, encoding of fields (30_encoding.md R63) -/

/-- The fields of the second form are its arguments; `r2` and `r3` are the halves of `imm`. -/
theorem fieldsOf_encodeI (op r1 : Nibble) (imm : Byte) :
    fieldsOf (encodeI op r1 imm) = ⟨op, r1, imm.extractLsb' 4 4, imm.extractLsb' 0 4, imm⟩ := by
  rw [encodeI_eq_append, fieldsOf, Fields.mk.injEq]
  exact ⟨(BitVec.extractLsb'_append_eq_of_le (by decide)).trans BitVec.extractLsb'_append_eq_left,
    (BitVec.extractLsb'_append_eq_of_le (by decide)).trans BitVec.extractLsb'_append_eq_right,
    BitVec.extractLsb'_append_eq_of_add_le (by decide), BitVec.extractLsb'_append_eq_of_add_le (by decide),
    BitVec.extractLsb'_append_eq_right⟩

theorem fieldsOf_encodeR (op r1 r2 r3 : Nibble) :
    fieldsOf (encodeR op r1 r2 r3) = ⟨op, r1, r2, r3, r2 ++ r3⟩ := by
  rw [encodeR_eq_encodeI, fieldsOf_encodeI, BitVec.extractLsb'_append_eq_left, BitVec.extractLsb'_append_eq_right]

theorem encodeI_fieldsOf (w : Word) : encodeI (fieldsOf w).opcode (fieldsOf w).r1 (fieldsOf w).imm = w := by
  obtain ⟨hop, hr1, -, -, himm⟩ := fieldsAreTheBitsOfTheWord w
  apply BitVec.eq_of_toNat_eq
  rw [encodeI_toNat, hop, hr1, himm]
  omega

theorem encodeR_fieldsOf (w : Word) :
    encodeR (fieldsOf w).opcode (fieldsOf w).r1 (fieldsOf w).r2 (fieldsOf w).r3 = w := by
  rw [encodeR_eq_encodeI, ← fieldsOf_imm, encodeI_fieldsOf]

/-! ### Instructions and words (30_encoding.md R60, R63, R68) -/

theorem ofFields_of_ge {f : Fields} (h : 12 ≤ f.opcode.toNat) :
    ofFields f = .unassigned (f.opcode.extractLsb' 0 2) f.r1 f.imm := by
  unfold ofFields
  split
  case h_13 => rfl
  all_goals omega

/-- Opcodes 12 to 15 are the ones with bits 15-14 set. -/
theorem toNat_three_append (low : BitVec 2) : ((3 : BitVec 2) ++ low).toNat = 12 + low.toNat :=
  toNat_append_eq_add _ _

theorem three_append_extractLsb' {op : Nibble} (h : 12 ≤ op.toNat) : (3 : BitVec 2) ++ op.extractLsb' 0 2 = op := by
  apply BitVec.eq_of_toNat_eq
  rw [toNat_three_append, BitVec.extractLsb'_toNat, Nat.shiftRight_zero]
  omega

theorem ofFields_three_append (low : BitVec 2) (r1 r2 r3 : Nibble) (imm : Byte) :
    ofFields ⟨(3 : BitVec 2) ++ low, r1, r2, r3, imm⟩ = .unassigned low r1 imm := by
  rw [ofFields_of_ge (by rw [toNat_three_append]; omega), BitVec.extractLsb'_append_eq_right]

theorem decode_encode (i : Instr) : decode (encode i) = i := by
  cases i with
  | add | shr | shl => exact congrArg ofFields (fieldsOf_encodeR _ _ _ _)
  | unassigned low r1 imm =>
    exact (congrArg ofFields (fieldsOf_encodeI _ r1 imm)).trans (ofFields_three_append low r1 _ _ imm)
  | _ => exact congrArg ofFields (fieldsOf_encodeI _ _ _)

/-- Settles O1: decoding recovers the fields, the opcode map the constructor; a stream loses its first word. -/
theorem decodeOfEncodeIsTheInstruction : Obligations.DecodeOfEncodeIsTheInstruction := by
  intro i rest
  refine ⟨decode_encode i, ?_⟩
  rw [encodeWords, List.singleton_append, decodeWords, decode_encode]

/-- No operation drops a bit: the three with `r1 r2 r3` keep `imm` as `r2` and `r3`, all others keep it whole. -/
theorem encode_ofFields {f : Fields} (himm : f.imm = f.r2 ++ f.r3) :
    encode (ofFields f) = encodeI f.opcode f.r1 f.imm := by
  have hopcode {k : Nat} (h : f.opcode.toNat = k) : f.opcode = BitVec.ofNat 4 k := by
    rw [← h, BitVec.ofNat_toNat, BitVec.setWidth_eq]
  by_cases hge : 12 ≤ f.opcode.toNat
  · rw [ofFields_of_ge hge, encode, three_append_extractLsb' hge]
  · unfold ofFields
    split
    case h_3 h | h_4 h | h_8 h => rw [himm, hopcode h]; exact encodeR_eq_encodeI _ _ _ _
    case h_13 => grind
    all_goals
      next h => rw [hopcode h]; rfl

theorem encode_decode (w : Word) : encode (decode w) = w :=
  (encode_ofFields (fieldsOf_imm w)).trans (encodeI_fieldsOf w)

/-- Settles O2: both forms of `Encode` put the fields side by side, and the opcode map drops none of them. -/
theorem encodeOfDecodeIsTheWord : Obligations.EncodeOfDecodeIsTheWord := by
  refine ⟨fun op r1 r2 r3 => ⟨encodeR_toNat op r1 r2 r3, fieldsOf_encodeR op r1 r2 r3⟩, fun op r1 imm => ?_,
    fun w => ?_⟩
  · rw [fieldsOf_encodeI]
    exact ⟨encodeI_toNat op r1 imm, rfl, rfl, rfl⟩
  · exact ⟨encodeR_fieldsOf w, encodeI_fieldsOf w, (fieldsOf_imm w).trans (append_eq_shiftLeft_or _ _),
      encode_decode w⟩

/-- The architect's family `OpcodeNibble` as one statement. -/
theorem fieldsOf_encode_opcode (i : Instr) : (fieldsOf (encode i)).opcode = i.opcode := by
  cases i with
  | add | shr | shl => exact Laws.encodeR_opcode _ _ _ _
  | _ => exact Laws.encodeI_opcode _ _ _

/-- Settles O5: the word is the encoding of its instruction, whose bits 15-12 are the instruction's opcode. -/
theorem opcodeAloneSelectsTheOperation : Obligations.OpcodeAloneSelectsTheOperation := by
  intro w
  have hop : (decode w).opcode = (fieldsOf w).opcode := by
    rw [← fieldsOf_encode_opcode, encode_decode]
  rw [hop]
  obtain ⟨hbits, -⟩ := fieldsAreTheBitsOfTheWord w
  exact hbits

/-- Settles O6: the fourteen words are evaluated by the decoder. -/
theorem specWordsDecodeAsListed : Obligations.SpecWordsDecodeAsListed := by
  unfold Obligations.SpecWordsDecodeAsListed
  decide

/-! ### Ignored fields (30_encoding.md R66, R71) -/

/-- Settles O7: the body of each of the seven is a function of the fields that R66 does not ignore. -/
theorem ignoredFieldsHaveNoEffect : Obligations.IgnoredFieldsHaveNoEffect := by
  intro s r q x y p l k v
  exact ⟨rfl, rfl, rfl, rfl, rfl, rfl, rfl⟩

end Sys2Proof.Proofs

namespace Sys2Proof.Proofs

open Sys2Proof.Machine

variable {s t : State}

/-! ### The masks of the opcode table (30_encoding.md R61, R68) -/

theorem and_imm_mask (w : Word) : w &&& 0x00FF = zext16 (fieldsOf w).imm := by
  obtain ⟨-, -, -, -, himm⟩ := fieldsAreTheBitsOfTheWord w
  apply BitVec.eq_of_toNat_eq
  rw [zext16_toNat, himm, BitVec.toNat_and]
  exact Nat.and_two_pow_sub_one_eq_mod _ 8

theorem and_opcode_mask (w : Word) : w &&& 0xF000 = encodeI (fieldsOf w).opcode 0 0 := by
  have hmask : (0xF000 : Word) = BitVec.allOnes 4 ++ (0 : Nibble) ++ (0 : Byte) := rfl
  conv_lhs => rw [← encodeI_fieldsOf w]
  rw [encodeI_eq_append, encodeI_eq_append, hmask, BitVec.and_append, BitVec.and_append, BitVec.and_allOnes]
  exact congrArg₂ _ (congrArg _ BitVec.and_zero) BitVec.and_zero

/-- A row of the table with mask 0xF000 matches the words of one opcode. -/
theorem and_opcode_mask_eq_iff {w : Word} {k : Nibble} :
    w &&& 0xF000 = encodeI k 0 0 ↔ (fieldsOf w).opcode = k := by
  rw [and_opcode_mask]
  refine ⟨fun h => ?_, fun h => by rw [h]⟩
  rw [← Laws.encodeI_opcode (fieldsOf w).opcode 0 0, h, Laws.encodeI_opcode]

/-- The row `match 0xC000, mask 0xC000` matches the words of opcodes 12 to 15. -/
theorem opcode_ge_of_unassigned_mask {w : Word} (h : w &&& 0xC000 = 0xC000) : 12 ≤ (fieldsOf w).opcode.toNat := by
  have hbits : (fieldsOf w).opcode &&& 12 = 12 := by
    have hfield := congrArg (BitVec.extractLsb' 12 4) h
    rwa [BitVec.extractLsb'_and] at hfield
  have hge : ∀ k : Nibble, k &&& 12 = 12 → 12 ≤ k.toNat := by decide
  exact hge _ hbits

/-! ### One step of a Running instance (40_engine.md R82, R83) -/

theorem step_of_fetch {w : Word} (hrun : s.running = true) (hfetch : s.fetch s.pc = .ok w) :
    step s = exec (decode w) s.advancePc := by
  simp [step, hrun, hfetch]

/-- Settles O8: the PC advance comes between the fetch and the body. -/
theorem stepRunsTheDecodedInstruction : Obligations.StepRunsTheDecodedInstruction :=
  fun _ _ => step_of_fetch

/-- Settles O9: the fetch of `Unified` reads `M` at `pc`, and decoding recovers the encoded instruction. -/
theorem placedInstructionRuns : Obligations.PlacedInstructionRuns := by
  intro s i hrun hlayout hpc hword
  have hfetch : s.fetch s.pc = .ok (encode i) := by rw [fetch_of_unified hlayout hpc, hword]
  rw [step_of_fetch hrun hfetch, decode_encode]
  rfl

/-- Settles O12: each step answers the unchanged state, by induction on the number of steps, and a budget takes none. -/
theorem haltedInstanceKeepsItsState : Obligations.HaltedInstanceKeepsItsState := by
  intro n s hhalted
  constructor
  · induction n with
    | zero => rfl
    | succ n ih => exact run_succ_eq_next.mpr ⟨s, step_of_halted hhalted, ih⟩
  · cases n <;> simp [runBudget, hhalted]

/-! ### NOP, UNASSIGNED and HALT (40_engine.md R85 to R87) -/

theorem step_of_nop_word {w : Word} (hrun : s.running = true) (hfetch : s.fetch s.pc = .ok w)
    (hop : (fieldsOf w).opcode = 0) : step s = .next s.advancePc := by
  rw [step_of_fetch hrun hfetch, decode, ofFields, hop]
  rfl

/-- Settles O14: a word of opcode 0 is NOP, the zero word among them. -/
theorem nopOnlyAdvancesPc : Obligations.NopOnlyAdvancesPc := by
  refine ⟨fun s w hrun hfetch hmask => ?_, fun s hrun hlayout hpc hzero => ?_, fun _ _ _ => rfl⟩
  · exact step_of_nop_word hrun hfetch (and_opcode_mask_eq_iff.mp hmask)
  · have hfetch : s.fetch s.pc = .ok 0 := by rw [fetch_of_unified hlayout hpc, hzero]
    exact step_of_nop_word hrun hfetch rfl

/-- Without a stack the bodies of opcodes 9, 10 and 11 are the no-op of R86. -/
theorem exec_stack_instruction_of_absent (habsent : s.cfg.stack = .absent) (r1 : Nibble) (imm : Byte) :
    exec (.push r1 imm) s = .next s ∧ exec (.pop r1 imm) s = .next s ∧ exec (.jump r1 imm) s = .next s := by
  simp [exec, execPush, execPop, execJump, habsent]

/-- Settles O15: opcodes 12 to 15 decode to UNASSIGNED; 9, 10 and 11 to instructions that need a stack. -/
theorem unassignedOpcodesAreNoOps : Obligations.UnassignedOpcodesAreNoOps := by
  refine ⟨fun s w hrun hfetch hmask => ?_, fun _ _ _ _ => rfl,
    fun _ r1 imm habsent => exec_stack_instruction_of_absent habsent r1 imm⟩
  rw [step_of_fetch hrun hfetch, decode]
  obtain hmask | ⟨habsent, hmask⟩ := hmask
  · rw [ofFields_of_ge (opcode_ge_of_unassigned_mask hmask)]
    rfl
  · obtain ⟨hpush, hpop, hjump⟩ :=
      exec_stack_instruction_of_absent (s := s.advancePc) habsent (fieldsOf w).r1 (fieldsOf w).imm
    obtain hmask | hmask | hmask := hmask
    · have hop : (fieldsOf w).opcode = 9 := and_opcode_mask_eq_iff.mp hmask
      rw [ofFields, hop]
      exact hpush
    · have hop : (fieldsOf w).opcode = 10 := and_opcode_mask_eq_iff.mp hmask
      rw [ofFields, hop]
      exact hpop
    · have hop : (fieldsOf w).opcode = 11 := and_opcode_mask_eq_iff.mp hmask
      rw [ofFields, hop]
      exact hjump

/-- Settles O16: a word of opcode 8 is HALT, whose body clears `running` after the PC advance. -/
theorem haltClearsRunning : Obligations.HaltClearsRunning := by
  refine ⟨fun s w hrun hfetch hmask => ?_, fun _ _ _ => rfl⟩
  have hop : (fieldsOf w).opcode = 8 := and_opcode_mask_eq_iff.mp hmask
  rw [step_of_fetch hrun hfetch, decode, ofFields, hop]
  rfl

/-! ### Register ports and the check of the register fields (10_state.md R23, R25; 60_exceptions.md R163) -/

/-- A field that passes `RegIdx` is what the 2-bit index port carries. -/
theorem regIdx_eq_idxPort {k : Nibble} (h : regFieldOk k = true) : regIdx k = .ok (idxPort k).toFin := by
  have hlt : k.toNat < 4 := of_decide_eq_true h
  refine regIdx_eq_ok.mpr ?_
  simp [idxPort, Nat.mod_eq_of_lt hlt]

theorem regIdx_of_not_ok {k : Nibble} (h : regFieldOk k = false) : regIdx k = .error (.regIndexOutOfRange k) :=
  regIdx_of_ge (Nat.not_lt.mp (of_decide_eq_false h))

/-- A body that goes on from register field `k` goes on from its index port, where the field is good. -/
theorem regIdx_bind {α : Type} (k : Nibble) (body : RegIndex → Except Fault α) :
    regIdx k >>= body = if regFieldOk k then body (idxPort k).toFin else .error (.regIndexOutOfRange k) := by
  cases h : regFieldOk k with
  | true => rw [regIdx_eq_idxPort h]; rfl
  | false => rw [regIdx_of_not_ok h]; rfl

/-- `e`, after the register fields `ks` have passed the engine's check, the first bad one being reported. -/
def afterFields (ks : List Nibble) (e : Except Fault State) : Except Fault State :=
  match ks.find? (fun k => !regFieldOk k) with
  | some k => .error (.regIndexOutOfRange k)
  | none => e

@[simp] theorem afterFields_nil (e : Except Fault State) : afterFields [] e = e := rfl

@[simp] theorem afterFields_cons (k : Nibble) (ks : List Nibble) (e : Except Fault State) :
    afterFields (k :: ks) e = if regFieldOk k then afterFields ks e else .error (.regIndexOutOfRange k) := by
  cases h : regFieldOk k <;> simp [afterFields, h]

/-! ### What the engine makes of one instruction (40_engine.md R89, R90) -/

/-- The blocks after a clock that commits with the control signals `c` and the decoder's outputs `f`. -/
def committed (s : State) (c : Control) (f : Fields) : State where
  cfg := s.cfg
  regs := regNext false c.we (idxPort f.r1) (writeData s c f) s.regs
  pc := pcNext false true c.jumpEn f.imm s.pc
  sp := spNext false c.push c.pop s.sp
  running := if c.halt then false else s.running
  mem := memNext c.dWe (dataAddr c f s.sp) (regPort s.regs (idxPort f.r1)) s.mem
  code := s.code
  out := if c.print then s.out ++ (scanFrom s.mem (stringStart s)).getD [] else s.out

theorem clock_of_commit (h : stepCommit s = true) :
    clock s = committed s (controlOf s.cfg.stack (fetchedFields s)) (fetchedFields s) := by
  obtain ⟨hrun, -⟩ := stepCommit_eq_true.mp h
  simp only [clock, committed, outPort, OutPort.drained, outBytes, signals_of_commit h, h, hrun]
  congr
  case e_running => cases (controlOf s.cfg.stack (fetchedFields s)).halt <;> rfl
  case e_out => split <;> simp

theorem clock_of_no_commit (h : stepCommit s = false) : clock s = s := by
  simp [clock, signals_of_no_commit h, h, outPort, OutPort.drained, outBytes_of_no_commit h, regNext, pcNext, spNext,
    memNext]

/-- How the engine ends a step whose word has the fields `f`: the first fault, or the commit of the row of `f`. -/
def engineOutcome (s : State) (f : Fields) : StepOutcome :=
  match firstFault s f with
  | some r => .fault r
  | none => .next (committed s (controlOf s.cfg.stack f) f)

/-- The engine once the register fields are good: the other faults in the order of 60_exceptions.md R163, or the
commit. -/
def engineBody (s : State) (c : Control) (f : Fields) : Except Fault State :=
  if c.push && stackFull s.sp then raise .stackOverflow
  else if c.pop && stackEmpty s.sp then raise .stackUnderflow
  else if c.print then
    if 255 < (stringStart s).toNat then raise (.syscallAddrOutOfRange (stringStart s))
    else if (scanFrom s.mem (stringStart s)).isNone then raise (.stringUnterminated (stringStart s))
    else .ok (committed s c f)
  else .ok (committed s c f)

variable {c : Control} {f : Fields}

theorem engineBody_of_push (hpush : c.push = true) (hpop : c.pop = false) (hprint : c.print = false) :
    engineBody s c f = if s.sp = 256 then raise .stackOverflow else .ok (committed s c f) := by
  simp [engineBody, stackFull, hpush, hpop, hprint]

theorem engineBody_of_pop (hpush : c.push = false) (hpop : c.pop = true) (hprint : c.print = false) :
    engineBody s c f = if s.sp = 0 then raise .stackUnderflow else .ok (committed s c f) := by
  simp [engineBody, stackEmpty, hpush, hpop, hprint]

/-- A print from the string address that the body finds; `u` is the state after the pop, where there is one. -/
theorem printString_eq_engineBody {u : State} (hpush : c.push = false) (hpop : (c.pop && stackEmpty s.sp) = false)
    (hprint : c.print = true) (haddr : stringAddr s.advancePc = .ok (stringStart s, u)) (hmem : u.mem = s.mem)
    (hcommit : ∀ bs, scanFrom s.mem (stringStart s) = some bs → committed s c f = u.emit bs) :
    printString s.advancePc = engineBody s c f := by
  simp only [engineBody, printString, haddr, bind_ok, hmem, hpush, hpop, hprint, Bool.false_and, Bool.false_eq_true,
    if_false, if_true]
  unfold scanFrom at hcommit ⊢
  split
  · rfl
  · split
    next hscan => simp [hscan]
    next bs hscan => simp [hscan, hcommit bs hscan]

/-- The engine in the shape of an instruction's body: a row of R90 with the fields it checks. -/
theorem engineOutcome_of_row {stack : StackOption} {ks : List Nibble} (hstack : s.cfg.stack = stack)
    (hc : controlOf stack f = c) (hks : usedRegFields stack f = ks) :
    engineOutcome s f = complete (afterFields ks (engineBody s c f)) := by
  simp only [engineOutcome, firstFault, engineBody, afterFields, hstack, hc, hks]
  cases ks.find? (fun k => !regFieldOk k) with
  | some k => rfl
  | none =>
    -- The conditions of `firstFault` are those of `engineBody`, one by one.
    split_ifs <;> rfl

/-- A row without signals and without register fields is a no-op. -/
theorem engineOutcome_of_idle_row {stack : StackOption} (hstack : s.cfg.stack = stack)
    (hc : controlOf stack f = {}) (hks : usedRegFields stack f = []) : engineOutcome s f = .next s.advancePc :=
  engineOutcome_of_row hstack hc hks

/-! ### Each instruction's body against its row of R90 -/

/-- `i`'s body after the PC advance is what the engine makes of `i`'s fields. -/
abbrev EngineRuns (s : State) (i : Instr) : Prop := exec i s.advancePc = engineOutcome s (fieldsOf (encode i))

theorem engineRuns_push (r1 : Nibble) (imm : Byte) : EngineRuns s (.push r1 imm) := by
  rw [EngineRuns, encode, fieldsOf_encodeI]
  cases hstack : s.cfg.stack with
  | absent =>
    obtain ⟨hpush, -, -⟩ := exec_stack_instruction_of_absent (s := s.advancePc) hstack r1 imm
    rw [hpush, engineOutcome_of_idle_row hstack rfl rfl]
  | present =>
    rw [engineOutcome_of_row (ks := [r1]) hstack rfl rfl, engineBody_of_push rfl rfl rfl]
    simp only [exec, execPush, State.advancePc_cfg, hstack, regIdx_bind, afterFields_cons, afterFields_nil]
    rfl

theorem engineRuns_pop (r1 : Nibble) (imm : Byte) : EngineRuns s (.pop r1 imm) := by
  rw [EngineRuns, encode, fieldsOf_encodeI]
  cases hstack : s.cfg.stack with
  | absent =>
    obtain ⟨-, hpop, -⟩ := exec_stack_instruction_of_absent (s := s.advancePc) hstack r1 imm
    rw [hpop, engineOutcome_of_idle_row hstack rfl rfl]
  | present =>
    rw [engineOutcome_of_row (ks := [r1]) hstack rfl rfl, engineBody_of_pop rfl rfl rfl]
    simp only [exec, execPop, popValue, State.advancePc_cfg, State.advancePc_sp, hstack, regIdx_bind, afterFields_cons,
      afterFields_nil]
    split <;> [split <;> rfl; rfl]

theorem engineRuns_jump (r1 : Nibble) (imm : Byte) : EngineRuns s (.jump r1 imm) := by
  rw [EngineRuns, encode, fieldsOf_encodeI]
  cases hstack : s.cfg.stack with
  | absent =>
    obtain ⟨-, -, hjump⟩ := exec_stack_instruction_of_absent (s := s.advancePc) hstack r1 imm
    rw [hjump, engineOutcome_of_idle_row hstack rfl rfl]
  | present =>
    rw [engineOutcome_of_row (ks := []) hstack rfl rfl, exec_jump_of_present (s := s.advancePc) hstack]
    rfl

theorem engineRuns_unassigned (low : BitVec 2) (r1 : Nibble) (imm : Byte) : EngineRuns s (.unassigned low r1 imm) := by
  rw [EngineRuns, encode, fieldsOf_encodeI]
  fin_cases low <;> exact (engineOutcome_of_idle_row rfl rfl rfl).symm

theorem engineRuns_syscall_zero (r1 : Nibble) : EngineRuns s (.syscall r1 0) := by
  rw [EngineRuns, encode, fieldsOf_encodeI]
  cases hstack : s.cfg.stack with
  | absent =>
    rw [engineOutcome_of_row (ks := []) hstack rfl rfl]
    have haddr : stringAddr s.advancePc = .ok (stringStart s, s.advancePc) :=
      stringAddr_eq_ok.mpr (.inr ⟨hstack, by rw [stringStart, hstack]; rfl, rfl⟩)
    exact congrArg complete
      (printString_eq_engineBody rfl rfl rfl haddr rfl fun bs hscan => by rw [committed, hscan]; rfl)
  | present =>
    rw [engineOutcome_of_row (ks := []) hstack rfl rfl]
    by_cases hsp : s.sp = 0
    · have hbody : printString s.advancePc = .error .stackUnderflow :=
        bind_eq_error.mpr (.inl (stringAddr_eq_error.mpr ⟨hstack, hsp, rfl⟩))
      have hempty : stackEmpty s.sp = true := decide_eq_true hsp
      rw [engineBody, hempty]
      exact congrArg complete hbody
    · have haddr : stringAddr s.advancePc = .ok (stringStart s, s.advancePc.setSp (s.sp - 1)) :=
        stringAddr_eq_ok.mpr (.inl ⟨hstack, hsp, by rw [stringStart, hstack]; rfl, rfl⟩)
      have hempty : stackEmpty s.sp = false := decide_eq_false hsp
      exact congrArg complete
        (printString_eq_engineBody rfl hempty rfl haddr rfl fun bs hscan => by rw [committed, hscan]; rfl)

theorem engineRuns_syscall_of_ne_zero (r1 : Nibble) {imm : Byte} (himm : imm ≠ 0) :
    EngineRuns s (.syscall r1 imm) := by
  rw [EngineRuns, encode, fieldsOf_encodeI]
  have hbody : exec (.syscall r1 imm) s.advancePc = .next s.advancePc := if_neg himm
  cases hstack : s.cfg.stack <;>
    rw [hbody, engineOutcome_of_idle_row hstack (by simpa [controlOf] using himm) rfl]

/-- The engine runs every instruction: its row of R90 and its fields of R22 agree with its body. -/
theorem engineRuns (i : Instr) : EngineRuns s i := by
  cases i with
  | nop r1 imm =>
    rw [EngineRuns, encode, fieldsOf_encodeI, engineOutcome_of_idle_row rfl rfl rfl]
    rfl
  | halt r1 imm =>
    rw [EngineRuns, encode, fieldsOf_encodeI, engineOutcome_of_row (ks := []) rfl rfl rfl]
    rfl
  | loadi r1 imm | load r1 imm | store r1 imm =>
    rw [EngineRuns, encode, fieldsOf_encodeI, engineOutcome_of_row (ks := [r1]) rfl rfl rfl]
    simp only [exec, execLoadi, execLoad, execStore, regIdx_bind, afterFields_cons, afterFields_nil]
    rfl
  | add r1 r2 r3 =>
    rw [EngineRuns, encode, fieldsOf_encodeR, engineOutcome_of_row (ks := [r1, r2, r3]) rfl rfl rfl]
    simp only [exec, execAdd, regIdx_bind, afterFields_cons, afterFields_nil]
    rfl
  | shr r1 r2 r3 | shl r1 r2 r3 =>
    rw [EngineRuns, encode, fieldsOf_encodeR, engineOutcome_of_row (ks := [r1, r2]) rfl rfl rfl]
    simp only [exec, execShr, execShl, regIdx_bind, afterFields_cons, afterFields_nil]
    rfl
  | push r1 imm => exact engineRuns_push r1 imm
  | pop r1 imm => exact engineRuns_pop r1 imm
  | jump r1 imm => exact engineRuns_jump r1 imm
  | syscall r1 imm =>
    by_cases himm : imm = 0
    · subst himm
      exact engineRuns_syscall_zero r1
    · exact engineRuns_syscall_of_ne_zero r1 himm
  | unassigned low r1 imm => exact engineRuns_unassigned low r1 imm

/-! ### The composed step (00_scope.md R2) -/

theorem fetch_eq_fetchData (hpc : s.pc.toNat < s.codeSize) : s.fetch s.pc = .ok (fetchData s s.pc) :=
  fetch_eq_ok.mpr ⟨hpc, rfl⟩

theorem stepFault_of_beyond (hrun : s.running = true) (hpc : s.codeSize ≤ s.pc.toNat) :
    stepFault s = some (.fetchOutOfRange s.pc) := by
  simp [stepFault, fetchOor, hrun, hpc]

theorem stepFault_of_code (hrun : s.running = true) (hpc : s.pc.toNat < s.codeSize) :
    stepFault s = firstFault s (fetchedFields s) := by
  simp [stepFault, fetchOor, fetchedFields, hrun, hpc]

/-- A word's fields are those of the instruction it decodes to, so the engine runs every word as the body does. -/
theorem exec_decode_eq_engineOutcome (w : Word) : exec (decode w) s.advancePc = engineOutcome s (fieldsOf w) := by
  rw [engineRuns (decode w), encode_decode]

theorem blockStep_eq_engineOutcome (hrun : s.running = true) (hpc : s.pc.toNat < s.codeSize) :
    blockStep s = engineOutcome s (fetchedFields s) := by
  have hfault := stepFault_of_code hrun hpc
  rw [blockStep, engineOutcome, ← hfault]
  cases hcase : stepFault s with
  | some r => rfl
  | none => exact congrArg _ (clock_of_commit (stepCommit_eq_true.mpr ⟨hrun, hcase⟩))

theorem blockStep_eq_step (s : State) : blockStep s = step s := by
  cases hrun : s.running with
  | false =>
    rw [blockStep, stepFault_of_halted hrun, step_of_halted hrun]
    exact congrArg _ (clock_of_no_commit (stepCommit_of_halted hrun))
  | true =>
    by_cases hpc : s.pc.toNat < s.codeSize
    · rw [blockStep_eq_engineOutcome hrun hpc, step_of_fetch hrun (fetch_eq_fetchData hpc),
        exec_decode_eq_engineOutcome]
      rfl
    · have hbeyond := Nat.not_lt.mp hpc
      rw [blockStep, stepFault_of_beyond hrun hbeyond, step_of_pc_beyond hrun hbeyond]

theorem step_of_commit (h : stepCommit s = true) : step s = .next (clock s) := by
  obtain ⟨-, hfault⟩ := stepCommit_eq_true.mp h
  rw [← blockStep_eq_step, blockStep, hfault]

theorem stepCommit_iff_completes : stepCommit s = true ↔ s.running = true ∧ ∃ t, step s = .next t := by
  constructor
  · intro h
    obtain ⟨hrun, -⟩ := stepCommit_eq_true.mp h
    exact ⟨hrun, _, step_of_commit h⟩
  · rintro ⟨hrun, t, hstep⟩
    rw [← blockStep_eq_step, blockStep] at hstep
    cases hfault : stepFault s with
    | some r => rw [hfault] at hstep; cases hstep
    | none => exact stepCommit_eq_true.mpr ⟨hrun, hfault⟩

/-- The one row of R90 with `jump_en`. -/
theorem controlOf_jumpEn {stack : StackOption} :
    (controlOf stack f).jumpEn = true ↔ stack = .present ∧ f.opcode = 11 := by
  rw [← BitVec.toNat_inj]
  unfold controlOf
  split
  case h_6 | h_7 => split <;> simp [*]
  case h_13 hno => simpa using fun hstack hop => hno hop hstack
  all_goals simp [*]

/-- The mux of R89. -/
theorem clock_pc_of_commit (h : stepCommit s = true) :
    (clock s).pc = if s.cfg.stack = .present ∧ (fetchedFields s).opcode = 11 then zext16 (fetchedFields s).imm
      else s.pc + 1 := by
  simp only [clock_of_commit h, committed, pcNext, controlOf_jumpEn, Bool.false_eq_true, if_false, if_true]

/-- Settles O59: a Halted instance keeps every block, a fetch beyond the code is the same fault of both, and any other
step compares each instruction's body with its row of the engine. -/
theorem blocksImplementTheStep : Obligations.BlocksImplementTheStep :=
  ⟨blockStep_eq_step, fun _ => stepCommit_iff_completes, fun _ => clock_pc_of_commit, fun _ => clock_of_no_commit⟩

theorem fetchedFields_of_fetch {w : Word} (hfetch : s.fetch s.pc = .ok w) : fetchedFields s = fieldsOf w := by
  obtain ⟨hpc, -⟩ := fetch_eq_ok.mp hfetch
  rw [fetch_eq_fetchData hpc] at hfetch
  cases hfetch
  rfl

/-- Settles O42: a step that completes is a clock that commits, whose `pc` comes from the mux of R89. -/
theorem pcAfterAStep : Obligations.PcAfterAStep := by
  intro s t w hrun hfetch hstep
  have hcommit := stepCommit_iff_completes.mpr ⟨hrun, t, hstep⟩
  have hpc := clock_pc_of_commit hcommit
  rw [step_of_commit hcommit] at hstep
  cases hstep
  rw [hpc, fetchedFields_of_fetch hfetch, ← and_imm_mask]
  have hjump : w &&& 0xF000 = 0xB000 ↔ (fieldsOf w).opcode = 11 := and_opcode_mask_eq_iff (k := 11)
  rw [Ne, hjump]
  refine ⟨fun hstack hop => if_pos ⟨hstack, hop⟩, fun hno => if_neg ?_⟩
  rintro ⟨hstack, hop⟩
  obtain habsent | hother := hno
  · rw [hstack] at habsent
    cases habsent
  · exact hother hop

end Sys2Proof.Proofs

namespace Sys2Proof.Proofs

open Sys2Proof.Machine Sys2Proof.Claims

/-! ### The ALU block in numbers (41_alu.md R104, R106) -/

theorem alu_add_toNat (a b : Word) (n : Nibble) : (alu .add a b n).toNat = (a.toNat + b.toNat) % 65536 :=
  BitVec.toNat_ofNat _ _

/-- A quotient is below 2^16 as its dividend is, so the reduction mod 2^16 keeps it. -/
theorem alu_shr_toNat (a b : Word) (n : Nibble) : (alu .shr a b n).toNat = a.toNat / 2 ^ n.toNat := by
  have hbound : a.toNat / 2 ^ n.toNat < 2 ^ 16 := (Nat.div_le_self _ _).trans_lt a.isLt
  exact (BitVec.toNat_ofNat _ _).trans (Nat.mod_eq_of_lt hbound)

theorem alu_shl_toNat (a b : Word) (n : Nibble) : (alu .shl a b n).toNat = a.toNat * 2 ^ n.toNat % 65536 :=
  BitVec.toNat_ofNat _ _

/-! ### The instructions that write one register (41_alu.md R100 to R103; 10_state.md R29) -/

theorem onlyRegister_writeReg (s : State) (d : RegIndex) (v : Word) : OnlyRegister d v.toNat s (s.writeReg d v) :=
  ⟨congrArg BitVec.toNat (State.readReg_writeReg_same s d v), fun _ hne => State.readReg_writeReg_ne s v hne,
    fun _ => rfl, rfl, rfl, rfl, rfl, rfl, rfl⟩

/-- Settles O17: the body writes one register, and zero extension keeps the number. -/
theorem loadiWritesTheImmediate : Obligations.LoadiWritesTheImmediate := by
  intro s r1 imm d hd
  refine ⟨_, execLoadi_eq_next.mpr ⟨d, hd, rfl⟩, ?_⟩
  rw [← zext16_toNat]
  exact onlyRegister_writeReg s d _

/-- Settles O18: the body writes one register with the ALU's sum of the values before. -/
theorem addWrapsModTwoToSixteen : Obligations.AddWrapsModTwoToSixteen := by
  intro s r1 r2 r3 d a b hd ha hb
  refine ⟨_, execAdd_eq_next.mpr ⟨d, a, b, hd, ha, hb, rfl⟩, ?_⟩
  rw [← alu_add_toNat _ _ 0]
  exact onlyRegister_writeReg s d _

/-- Settles O19: the body writes one register with the ALU's quotient by the literal count. -/
theorem shrIsFloorDivision : Obligations.ShrIsFloorDivision := by
  intro s r1 r2 r3 d a hd ha
  refine ⟨_, execShr_eq_next.mpr ⟨d, a, hd, ha, rfl⟩, ?_⟩
  rw [← alu_shr_toNat _ 0]
  exact onlyRegister_writeReg s d _

/-- Settles O20: the body writes one register with the ALU's product by the literal count, cut to 16 bits. -/
theorem shlIsMultiplicationModTwoToSixteen : Obligations.ShlIsMultiplicationModTwoToSixteen := by
  intro s r1 r2 r3 d a hd ha
  refine ⟨_, execShl_eq_next.mpr ⟨d, a, hd, ha, rfl⟩, ?_⟩
  rw [← alu_shl_toNat _ 0]
  exact onlyRegister_writeReg s d _

end Sys2Proof.Proofs

namespace Sys2Proof.Proofs

open Sys2Proof.Machine Sys2Proof.Claims

/-! ### LOAD and STORE (42_load_store.md R120 to R122; 20_memory.md R45, R46, R53) -/

/-- Settles O23: the body writes one register with the word read at its own address. -/
theorem loadReadsTheWord : Obligations.LoadReadsTheWord := by
  intro s r1 imm d hd
  exact ⟨_, execLoad_eq_next.mpr ⟨d, hd, rfl⟩, onlyRegister_writeReg s d _⟩

/-- Settles O24: the body is one write of memory, after which that word reads as written and every other as before. -/
theorem storeWritesOneWord : Obligations.StoreWritesOneWord := by
  intro s r1 imm a hmem ha
  refine ⟨_, execStore_eq_next.mpr ⟨a, ha, rfl⟩, State.memRead_memWrite_same imm _ hmem,
    fun _ hne => State.memRead_memWrite_ne s _ hne, Memory.write_wf imm _ hmem, State.readReg_memWrite s imm _, ?_⟩
  exact ⟨rfl, rfl, rfl, rfl, rfl, rfl⟩

/-- Settles O25: the STORE leaves the register's word at `imm`, and a LOAD from `imm` completes in any state with the
word that stands there. -/
theorem storeThenLoadRoundTrip : Obligations.StoreThenLoadRoundTrip := by
  intro s t u r1 q1 imm a d hmem ha hd hstore hkept
  obtain ⟨t', hstore', hword, -⟩ := storeWritesOneWord s r1 imm a hmem ha
  obtain rfl : t = t' := Host.Outcome.next.inj (hstore.symm.trans hstore')
  obtain ⟨v, hload, hreg, -⟩ := loadReadsTheWord u q1 imm d hd
  refine ⟨v, hload, ?_⟩
  calc v.readReg d = u.memRead imm := BitVec.eq_of_toNat_eq hreg
    _ = t.memRead imm := hkept
    _ = s.readReg a := hword

end Sys2Proof.Proofs

namespace Sys2Proof.Proofs

open Sys2Proof.Machine Sys2Proof.Claims

variable {s t : State}

/-- Settles O27: only number 0 prints. -/
theorem otherSyscallNumbersDoNothing : Obligations.OtherSyscallNumbersDoNothing :=
  fun _ _ _ himm => execSyscall_eq_next.mpr (.inr ⟨himm, rfl⟩)

/-! ### The scan against the byte stream (43_syscall.md R132, R134) -/

section
variable {m : Memory} {n a k : Nat}

/-- Two bytes on in the stream is one word on in memory. -/
theorem streamByte_add_two (m : Memory) (a j : Nat) : streamByte m a (j + 2) = streamByte m (a + 1) j := by
  have haddr : a + (j + 2) / 2 = a + 1 + j / 2 := by omega
  rw [streamByte, streamByte, haddr, Nat.add_mod_right]

theorem streamUpTo_add_two (m : Memory) (a k : Nat) :
    streamUpTo m a (k + 2) = streamByte m a 0 :: streamByte m a 1 :: streamUpTo m (a + 1) k := by
  simp [streamUpTo, List.range_succ_eq_map, Function.comp_def, streamByte_add_two]

/-- One round of the scan, over the two stream bytes of its word. -/
theorem scanString_succ (m : Memory) (n a : Nat) :
    scanString m (n + 1) a =
      if streamByte m a 0 = 0 then some []
      else if streamByte m a 1 = 0 then some [streamByte m a 0]
      else (scanString m n (a + 1)).map fun bs => streamByte m a 0 :: streamByte m a 1 :: bs := rfl

/-- The scan of `n` words gives the bytes before the first zero byte of their stream. -/
theorem scanString_of_first_zero (hk : k < 2 * n) (hzero : streamByte m a k = 0)
    (hbefore : ∀ j < k, streamByte m a j ≠ 0) : scanString m n a = some (streamUpTo m a k) := by
  induction n generalizing a k with
  | zero => omega
  | succ n ih =>
    rw [scanString_succ]
    match k with
    | 0 => exact if_pos hzero
    | 1 => rw [if_neg (hbefore 0 (by omega)), if_pos hzero]; rfl
    | k + 2 =>
      have htail : scanString m n (a + 1) = some (streamUpTo m (a + 1) k) :=
        ih (by omega) (streamByte_add_two m a k ▸ hzero) fun j hj =>
          streamByte_add_two m a j ▸ hbefore (j + 2) (by omega)
      rw [if_neg (hbefore 0 (by omega)), if_neg (hbefore 1 (by omega)), htail, streamUpTo_add_two]
      rfl

theorem scanString_of_no_zero (h : ∀ j < 2 * n, streamByte m a j ≠ 0) : scanString m n a = none := by
  induction n generalizing a with
  | zero => rfl
  | succ n ih =>
    have htail : scanString m n (a + 1) = none :=
      ih fun j hj => streamByte_add_two m a j ▸ h (j + 2) (by omega)
    rw [scanString_succ, if_neg (h 0 (by omega)), if_neg (h 1 (by omega)), htail]
    rfl

/-- The terminator is never among the bytes of the scan, since they all stand before the first zero byte. -/
theorem ne_zero_of_mem_scanString {bs : List Byte} (h : scanString m n a = some bs) : ∀ b ∈ bs, b ≠ 0 := by
  by_cases hex : ∃ k, k < 2 * n ∧ streamByte m a k = 0
  · obtain ⟨hk, hzero⟩ := Nat.find_spec hex
    have hbefore : ∀ j < Nat.find hex, streamByte m a j ≠ 0 := fun j hj hz =>
      Nat.find_min hex hj ⟨hj.trans hk, hz⟩
    obtain rfl := Option.some.inj (h.symm.trans (scanString_of_first_zero hk hzero hbefore))
    simpa [streamUpTo] using hbefore
  · have hnone : scanString m n a = none := scanString_of_no_zero fun j hj hz => hex ⟨j, hj, hz⟩
    rw [hnone] at h
    cases h

end

/-! ### Syscall 0 from its string address (43_syscall.md R131, R134, R135) -/

theorem exec_syscall_zero_of_ok (r1 : Nibble) (h : printString s = .ok t) :
    exec (.syscall r1 0) s = .next t := complete_eq_next.mpr h

theorem exec_syscall_zero_of_error {r : Fault} (r1 : Nibble) (h : printString s = .error r) :
    exec (.syscall r1 0) s = .fault r := complete_eq_fault.mpr h

theorem stringAddr_of_absent (hstack : s.cfg.stack = .absent) : stringAddr s = .ok (s.readReg 0, s) :=
  stringAddr_eq_ok.mpr (.inr ⟨hstack, rfl, rfl⟩)

theorem ne_zero_of_one_le_toNat {w : Word} (h : 1 ≤ w.toNat) : w ≠ 0 := by
  rintro rfl
  exact absurd h (by decide)

theorem stringAddr_of_present {top : Byte} (hstack : s.cfg.stack = .present) (hpos : 1 ≤ s.sp.toNat)
    (hsp : s.sp.toNat ≤ 256) (htop : top.toNat = 256 - s.sp.toNat) :
    stringAddr s = .ok (s.memRead top, s.setSp (s.sp - 1)) := by
  have hne := ne_zero_of_one_le_toNat hpos
  have hslot : top = topSlot s.sp := BitVec.eq_of_toNat_eq (by rw [htop, topSlot_toNat hne hsp])
  exact stringAddr_eq_ok.mpr (.inl ⟨hstack, hne, by rw [hslot], rfl⟩)

section
variable {u : State} {addr : Word} (haddr : stringAddr s = .ok (addr, u))
include haddr

theorem exec_syscall_zero_prints (r1 : Nibble) {k : Nat} (hle : addr.toNat ≤ 255)
    (hfirst : FirstZeroByte u.mem addr.toNat k) :
    exec (.syscall r1 0) s = .next (u.emit (streamUpTo u.mem addr.toNat k)) := by
  obtain ⟨hk, hzero, hbefore⟩ := hfirst
  exact exec_syscall_zero_of_ok r1
    (printString_eq_ok.mpr ⟨addr, u, _, haddr, hle, scanString_of_first_zero hk hzero hbefore, rfl⟩)

theorem exec_syscall_zero_of_addr_above (r1 : Nibble) (habove : 256 ≤ addr.toNat) :
    exec (.syscall r1 0) s = .fault (.syscallAddrOutOfRange addr) := by
  have hrange : 255 < addr.toNat := habove
  refine exec_syscall_zero_of_error r1 ?_
  simp [printString, haddr, hrange]

theorem exec_syscall_zero_of_no_zero (r1 : Nibble) (hle : addr.toNat ≤ 255)
    (hno : ∀ j < 2 * (256 - addr.toNat), streamByte u.mem addr.toNat j ≠ 0) :
    exec (.syscall r1 0) s = .fault (.stringUnterminated addr) := by
  have hrange : ¬255 < addr.toNat := Nat.not_lt.mpr hle
  refine exec_syscall_zero_of_error r1 ?_
  simp [printString, haddr, hrange, scanString_of_no_zero hno]

end

theorem exec_syscall_zero_of_empty_stack (r1 : Nibble) (hstack : s.cfg.stack = .present) (hsp : s.sp = 0) :
    exec (.syscall r1 0) s = .fault .stackUnderflow :=
  exec_syscall_zero_of_error r1 (bind_eq_error.mpr (.inl (stringAddr_eq_error.mpr ⟨hstack, hsp, rfl⟩)))

/-- Settles O28: the address is `x[0]`, and the scan from it gives the bytes before the first zero byte. -/
theorem printStringFromRegisterZero : Obligations.PrintStringFromRegisterZero := by
  intro s r1 k hstack hle hfirst
  exact ⟨_, exec_syscall_zero_prints (stringAddr_of_absent hstack) r1 hle hfirst, rfl, rfl, fun _ => rfl,
    fun _ => rfl, rfl, rfl, rfl, rfl⟩

/-- Settles O29: the address is the popped word; the pop changes `sp` alone, so the scan reads the memory before it. -/
theorem printStringFromTheStack : Obligations.PrintStringFromTheStack := by
  intro s r1 top k hstack hpos hsp htop hle hfirst
  have haddr := stringAddr_of_present hstack hpos hsp htop
  have hdepth : (s.sp - 1).toNat = s.sp.toNat - 1 := by
    have := toNat_sub_one (ne_zero_of_one_le_toNat hpos)
    omega
  exact ⟨_, exec_syscall_zero_prints haddr r1 hle hfirst, rfl, hdepth, fun _ => rfl, fun _ => rfl, rfl, rfl, rfl,
    rfl⟩

/-- Settles O30: without an address the pop underflows; with one, from either source, its range is checked before the
scan. -/
theorem printStringFaults : Obligations.PrintStringFaults := by
  intro s r1
  refine ⟨exec_syscall_zero_of_empty_stack r1, fun hstack => ?_, fun hstack => ?_,
    fun top hstack hpos hsp htop => ?_⟩
  · exact exec_syscall_zero_of_addr_above (stringAddr_of_absent hstack) r1
  · exact exec_syscall_zero_of_no_zero (stringAddr_of_absent hstack) r1
  · have haddr := stringAddr_of_present hstack hpos hsp htop
    exact ⟨exec_syscall_zero_of_addr_above haddr r1, exec_syscall_zero_of_no_zero haddr r1⟩

/-- Settles O31: of the ways a body completes only the two of syscall 0 emit, and what they emit comes from the scan. -/
theorem onlySyscallZeroEmits : Obligations.OnlySyscallZeroEmits := by
  intro i s t h
  cases completion_of_exec h with
  | printFromRegister r1 _ bs _ hscan | printFromStack r1 _ bs _ _ hscan =>
    exact ⟨bs, rfl, ne_zero_of_mem_scanString hscan, fun hno => absurd rfl (hno r1)⟩
  | unchanged | halt | writeReg | store | push | pop | jump =>
    exact ⟨[], (List.append_nil _).symm, nofun, fun _ => rfl⟩

/-! ### The output port over several clocks (43_syscall.md R136) -/

/-- A clock moves the first pending byte, if there is one, when `out_ready` is 1. -/
theorem tick_eq_take_drop (p : OutPort) (ready : Bool) :
    p.tick ready = ⟨p.pending.drop ready.toNat, p.accepted ++ p.pending.take ready.toNat⟩ := by
  obtain ⟨pending, accepted⟩ := p
  cases ready with
  | false => simp
  | true => cases pending <;> simp

/-- A run of clocks moves as many pending bytes, from the first on, as there are ready clocks among them. -/
theorem ticks_eq_take_drop (p : OutPort) (ready : List Bool) :
    p.ticks ready = ⟨p.pending.drop (ready.count true), p.accepted ++ p.pending.take (ready.count true)⟩ := by
  induction ready generalizing p with
  | nil => simp
  | cons r rs ih =>
    have hcount : (r :: rs).count true = r.toNat + rs.count true := by cases r <;> simp [Nat.add_comm]
    rw [OutPort.ticks_cons, ih, tick_eq_take_drop, hcount, List.drop_drop, List.take_add, List.append_assoc]

theorem drained_ticks (p : OutPort) (ready : List Bool) : (p.ticks ready).drained = p.drained := by
  rw [ticks_eq_take_drop, OutPort.drained, List.append_assoc, List.take_append_drop, OutPort.drained]

theorem valid_eq_true {p : OutPort} : p.valid = true ↔ p.pending ≠ [] := by simp [OutPort.valid]

theorem port_offers_first_pending {p : OutPort} {b : Byte} {bs : List Byte} (h : p.pending = b :: bs) :
    p.valid = true ∧ p.byte = some b ∧ p.tick true = ⟨bs, p.accepted ++ [b]⟩ ∧ p.tick false = p := by
  obtain ⟨pending, accepted⟩ := p
  subst h
  exact ⟨rfl, rfl, rfl, rfl⟩

/-- What the port does alone, however the host drives `out_ready` (60_exceptions.md R171). -/
theorem port_delivers_in_order (p : OutPort) (ready : List Bool) :
    (p.ticks ready).drained = p.drained ∧
    (p.ticks ready).accepted.length = p.accepted.length + min (ready.count true) p.pending.length ∧
    (p.pending.length ≤ ready.count true →
      (p.ticks ready).pending = [] ∧ (p.ticks ready).accepted = p.accepted ++ p.pending) := by
  refine ⟨drained_ticks p ready, ?_, fun henough => ?_⟩
  · rw [ticks_eq_take_drop, List.length_append, List.length_take]
  · rw [ticks_eq_take_drop, List.drop_eq_nil_of_le henough, List.take_of_length_le henough]
    exact ⟨rfl, rfl⟩

/-! ### What a step feeds the port (43_syscall.md R134, R136) -/

theorem step_eq_next_iff_clock : step s = .next t ↔ stepFault s = none ∧ clock s = t := by
  rw [← blockStep_eq_step, blockStep]
  cases stepFault s <;> simp

theorem step_eq_fault_iff_stepFault {r : Fault} : step s = .fault r ↔ stepFault s = some r := by
  rw [← blockStep_eq_step, blockStep]
  cases stepFault s <;> simp

theorem outBytes_of_step_fault {r : Fault} (h : step s = .fault r) : outBytes s = [] :=
  outBytes_of_no_commit (by simp [stepCommit, step_eq_fault_iff_stepFault.mp h])

/-- The two rows of R90 with `print`. -/
theorem controlOf_print {stack : StackOption} {f : Fields} (h : (controlOf stack f).print = true) :
    f.opcode = 6 ∧ f.imm = 0 := by
  rw [← BitVec.toNat_inj]
  unfold controlOf at h
  split at h
  case h_6 hop | h_7 hop =>
    split at h
    next himm => exact ⟨hop, himm⟩
    next => cases h
  all_goals cases h

theorem and_syscall_mask (w : Word) : w &&& 0xF0FF = encodeI (fieldsOf w).opcode 0 (fieldsOf w).imm := by
  have hmask : (0xF0FF : Word) = BitVec.allOnes 4 ++ (0 : Nibble) ++ BitVec.allOnes 8 := rfl
  conv_lhs => rw [← encodeI_fieldsOf w]
  rw [encodeI_eq_append, encodeI_eq_append, hmask, BitVec.and_append, BitVec.and_append, BitVec.and_allOnes,
    BitVec.and_allOnes]
  exact congrArg (fun r1 => _ ++ r1 ++ _) BitVec.and_zero

theorem outBytes_of_not_syscall_zero {w : Word} (hfetch : s.fetch s.pc = .ok w) (hw : w &&& 0xF0FF ≠ 0x6000) :
    outBytes s = [] := by
  cases hcommit : stepCommit s with
  | false => exact outBytes_of_no_commit hcommit
  | true =>
    refine if_neg fun hprint => hw ?_
    rw [signals_of_commit hcommit, fetchedFields_of_fetch hfetch] at hprint
    obtain ⟨hop, himm⟩ := controlOf_print hprint
    rw [and_syscall_mask, hop, himm]
    rfl

/-- The port is loaded with the bytes the step appends to `out`, and with none by any other step. -/
theorem outPort_holds_the_bytes_of_the_step (s : State) :
    (outPort s).accepted = s.out ∧
    (∀ t, step s = .next t → t.out = s.out ++ (outPort s).pending) ∧
    (∀ r, step s = .fault r → (outPort s).pending = []) ∧
    (s.running = false → (outPort s).pending = []) ∧
    (∀ w, s.fetch s.pc = .ok w → w &&& 0xF0FF ≠ 0x6000 → (outPort s).pending = []) := by
  refine ⟨rfl, fun t hstep => ?_, fun _ => outBytes_of_step_fault,
    fun hhalted => outBytes_of_no_commit (stepCommit_of_halted hhalted), fun _ => outBytes_of_not_syscall_zero⟩
  obtain ⟨-, rfl⟩ := step_eq_next_iff_clock.mp hstep
  exact clock_out

/-! ### The hardware with its port (43_syscall.md R136) -/

variable {h : Hardware}

/-- What the hardware keeps while the port alone moves. -/
theorem hardware_clock_of_pending (hpending : h.pending ≠ []) (ready : Bool) :
    ∃ g, h.clock ready = .next g ∧ g.port = h.port.tick ready ∧ g.architectural = h.architectural ∧
      { g.core with out := h.core.out } = h.core := by
  refine ⟨_, if_pos (valid_eq_true.mpr hpending), rfl, ?_, rfl⟩
  exact congrArg (fun out => { h.core with out := out }) (drained_ticks h.port [ready])

theorem not_valid_of_no_pending (hpending : h.pending = []) : ¬h.port.valid = true :=
  fun hvalid => valid_eq_true.mp hvalid hpending

/-- With nothing pending a clock is the step of the blocks, all of whose bytes are pending after it. -/
theorem hardware_clock_of_step (hpending : h.pending = []) (ready : Bool) (hstep : step h.core = .next t) :
    ∃ g, h.clock ready = .next g ∧ g.architectural = t ∧ g.core.out = h.core.out ∧
      g.pending = (outPort h.core).pending := by
  obtain ⟨hfault, rfl⟩ := step_eq_next_iff_clock.mp hstep
  rw [Hardware.clock, if_neg (not_valid_of_no_pending hpending), hfault]
  exact ⟨_, rfl, rfl, rfl, rfl⟩

theorem hardware_clock_of_fault (hpending : h.pending = []) (ready : Bool) {r : Fault}
    (hstep : step h.core = .fault r) : h.clock ready = .fault r := by
  rw [Hardware.clock, if_neg (not_valid_of_no_pending hpending), step_eq_fault_iff_stepFault.mp hstep]

/-- Settles O60: a run of clocks takes as many bytes off the front of the pending ones as it has ready clocks; the step
is the clock of the blocks, which hands the port what it appends to `out`. -/
theorem outputPortDeliversInOrder : Obligations.OutputPortDeliversInOrder := by
  refine ⟨fun p ready => ?_, outPort_holds_the_bytes_of_the_step,
    fun _ ready hpending => hardware_clock_of_pending hpending ready, fun _ ready hpending =>
      ⟨fun _ => hardware_clock_of_step hpending ready, fun _ => hardware_clock_of_fault hpending ready⟩⟩
  obtain ⟨hdrained, hlength, henough⟩ := port_delivers_in_order p ready
  exact ⟨hdrained, hlength, henough, fun _ _ => port_offers_first_pending⟩

end Sys2Proof.Proofs

namespace Sys2Proof.Proofs

open Sys2Proof.Machine Sys2Proof.Claims

variable {s t : State}

/-! ### PUSH, POP and JUMP where `STACK = Present` (44_stack_jump.md R141 to R145) -/

theorem exec_push_of_present {r1 : Nibble} {a : RegIndex} (hstack : s.cfg.stack = .present) (ha : r1.toNat = a.val)
    (hroom : s.sp.toNat ≤ 255) (imm : Byte) :
    exec (.push r1 imm) s = .next ((s.setSp (s.sp + 1)).memWrite (pushSlot s.sp) (s.readReg a)) := by
  have hne : s.sp ≠ 256 := fun h => absurd (h ▸ hroom) (by decide)
  exact execPush_eq_next.mpr (.inr ⟨hstack, a, ha, hne, rfl⟩)

theorem exec_pop_of_present {r1 : Nibble} {d : RegIndex} (hstack : s.cfg.stack = .present) (hd : r1.toNat = d.val)
    (hpos : 1 ≤ s.sp.toNat) (imm : Byte) :
    exec (.pop r1 imm) s = .next ((s.setSp (s.sp - 1)).writeReg d (s.memRead (topSlot s.sp))) :=
  execPop_eq_next.mpr (.inr ⟨hstack, d, hd, ne_zero_of_one_le_toNat hpos, rfl⟩)

/-- A PUSH that completed on a stack of at most 256 words found room (R142). -/
theorem sp_le_of_exec_push {r1 : Nibble} {imm : Byte} (hstack : s.cfg.stack = .present) (hsp : s.sp.toNat ≤ 256)
    (h : exec (.push r1 imm) s = .next t) : s.sp.toNat ≤ 255 := by
  obtain ⟨habsent, -⟩ | ⟨-, _, -, hne, -⟩ := execPush_eq_next.mp h
  · rw [hstack] at habsent
    cases habsent
  · have hlt : s.sp.toNat ≠ 256 := fun heq => hne (BitVec.eq_of_toNat_eq heq)
    omega

theorem exec_push_of_full {r1 : Nibble} (hstack : s.cfg.stack = .present) (h : r1.toNat < 4) (hsp : s.sp = 256)
    (imm : Byte) : exec (.push r1 imm) s = .fault .stackOverflow := by
  simp [exec, execPush, hstack, regIdx_of_lt h, hsp]

theorem exec_pop_of_empty {r1 : Nibble} (hstack : s.cfg.stack = .present) (h : r1.toNat < 4) (hsp : s.sp = 0)
    (imm : Byte) : exec (.pop r1 imm) s = .fault .stackUnderflow := by
  simp [exec, execPop, popValue, hstack, regIdx_of_lt h, hsp]

theorem eq_pushSlot_iff {sp : Word} (hsp : sp.toNat ≤ 255) {b : Byte} :
    b = pushSlot sp ↔ b.toNat = 256 - (sp.toNat + 1) := by
  rw [← BitVec.toNat_inj, pushSlot_toNat (by omega)]
  omega

theorem eq_topSlot_iff {sp : Word} (hpos : 1 ≤ sp.toNat) (hsp : sp.toNat ≤ 256) {b : Byte} :
    b = topSlot sp ↔ b.toNat = 256 - sp.toNat := by
  rw [← BitVec.toNat_inj, topSlot_toNat (ne_zero_of_one_le_toNat hpos) hsp]

/-- Settles O32: the body raises `sp` and writes one word, at the slot whose address is 256 less the new `sp`. -/
theorem pushWritesTheNextSlot : Obligations.PushWritesTheNextSlot := by
  intro s r1 imm a hmem hstack hsp ha
  refine ⟨_, exec_push_of_present hstack ha hsp imm, toNat_add_one (w := s.sp) (by omega), fun b hb => ?_,
    fun b hb => ?_, Memory.write_wf _ _ hmem, fun _ => rfl, rfl, rfl, rfl, rfl, rfl⟩
  · obtain rfl := (eq_pushSlot_iff hsp).mpr hb
    exact State.memRead_memWrite_same (s := s.setSp (s.sp + 1)) _ _ hmem
  · exact State.memRead_memWrite_ne (s.setSp (s.sp + 1)) _ fun h => hb ((eq_pushSlot_iff hsp).mp h)

/-- Settles O33: the body lowers `sp` and writes one register with the word of the top slot, which stays in memory. -/
theorem popReadsTheTopSlot : Obligations.PopReadsTheTopSlot := by
  intro s r1 imm top d hstack hpos hsp htop hd
  obtain rfl := (eq_topSlot_iff hpos hsp).mpr htop
  have hdepth : (s.sp - 1).toNat = s.sp.toNat - 1 := by
    have := toNat_sub_one (ne_zero_of_one_le_toNat hpos)
    omega
  exact ⟨_, exec_pop_of_present hstack hd hpos imm, State.readReg_writeReg_same _ d _,
    fun _ hne => State.readReg_writeReg_ne (s.setSp (s.sp - 1)) _ hne, hdepth, fun _ => rfl, rfl, rfl, rfl, rfl, rfl⟩

/-- Settles O36: the PUSH leaves the register's word in the slot that a POP of the same depth reads, and the POP takes
back the PUSH's one word of depth. -/
theorem pushThenPopRestores : Obligations.PushThenPopRestores := by
  intro s t u r1 q1 x y a d hmem hstack hsp ha hd hpush hcfg hdepth hslot
  have hroom := sp_le_of_exec_push hstack hsp hpush
  obtain ⟨t', hpush', htsp, hword, -, -, -, -, -, -, htcfg, -⟩ :=
    pushWritesTheNextSlot s r1 x a hmem hstack hroom ha
  obtain rfl : t = t' := Host.Outcome.next.inj (hpush.symm.trans hpush')
  have hustack : u.cfg.stack = .present := by rw [hcfg, htcfg, hstack]
  have husp : u.sp.toNat = s.sp.toNat + 1 := by rw [hdepth, htsp]
  have htop : (topSlot u.sp).toNat = 256 - u.sp.toNat := topSlot_toNat (ne_zero_of_one_le_toNat (by omega)) (by omega)
  obtain ⟨v, hpop, hreg, -, hvsp, -⟩ := popReadsTheTopSlot u q1 y _ d hustack (by omega) (by omega) htop hd
  refine ⟨v, hpop, ?_, BitVec.eq_of_toNat_eq (by omega)⟩
  calc v.readReg d = u.memRead (topSlot u.sp) := hreg
    _ = t.memRead (topSlot u.sp) := hslot _ (by rw [htop, hdepth])
    _ = s.readReg a := hword _ (by rw [htop, husp])

/-- The target is written after the PC advance, which it overrides (R145, R187). -/
theorem step_of_jump_word {w : Word} (hrun : s.running = true) (hstack : s.cfg.stack = .present)
    (hfetch : s.fetch s.pc = .ok w) (hw : w &&& 0xF000 = 0xB000) : step s = .next (s.setPc (w &&& 0x00FF)) := by
  have hop : (fieldsOf w).opcode = 11 := and_opcode_mask_eq_iff.mp hw
  have hdecode : decode w = .jump (fieldsOf w).r1 (fieldsOf w).imm := by rw [decode, ofFields, hop]; rfl
  rw [step_of_fetch hrun hfetch, hdecode, and_imm_mask]
  exact exec_jump_of_present (s := s.advancePc) hstack _ _

/-- Settles O34: the body sets `pc` alone, and zero extension keeps the number. -/
theorem jumpSetsPc : Obligations.JumpSetsPc := by
  refine ⟨fun s r1 imm hstack => ?_, fun s w hrun hstack hfetch hw => step_of_jump_word hrun hstack hfetch hw⟩
  have htarget : zext16 imm = BitVec.ofNat 16 imm.toNat := (BitVec.ofNat_toNat 16 imm).symm
  rw [exec_jump_of_present hstack, htarget]
  rfl

/-! ### Which steps leave `pc` above `CODE_SIZE` (10_state.md R27; 44_stack_jump.md R145) -/

theorem codeSize_congr (hcfg : t.cfg = s.cfg) (hcode : t.code = s.code) : t.codeSize = s.codeSize := by
  simp [State.codeSize, hcfg, hcode]

theorem and_imm_mask_toNat_le (w : Word) : (w &&& 0x00FF).toNat ≤ 255 := by
  rw [and_imm_mask, zext16_toNat]
  omega

/-- From a code address the PC advance goes at most one beyond the last one; a wrap would only take it to 0. -/
theorem advance_le_codeSize_of_fetch {w : Word} (hfetch : s.fetch s.pc = .ok w) : (s.pc + 1).toNat ≤ s.codeSize := by
  obtain ⟨hlt, -⟩ := fetch_eq_ok.mp hfetch
  calc (s.pc + 1).toNat ≤ s.pc.toNat + 1 := by rw [BitVec.toNat_add]; exact Nat.mod_le _ _
    _ ≤ s.codeSize := hlt

/-- Settles O37: the next step's fetch is at the JUMP's target. A step that takes no target ends with the PC advance,
within the bound, and in `Unified` every target is a code address. -/
theorem jumpBeyondSplitCodeFaultsAtTheNextFetch : Obligations.JumpBeyondSplitCodeFaultsAtTheNextFetch := by
  refine ⟨fun s w hrun hcfg hfetch hw hbeyond => ?_, fun s t w hrun hfetch hstep habove => ?_⟩
  · have hsize : s.codeSize = s.code.length := codeSize_of_split (by rw [hcfg])
    exact ⟨_, step_of_jump_word hrun (by rw [hcfg]) hfetch hw, rfl,
      step_of_pc_beyond (s := s.setPc (w &&& 0x00FF)) hrun (hsize.trans_le hbeyond)⟩
  · obtain ⟨hcfg, hcode⟩ := configurationAndCodeArrayNeverChange s t hstep
    rw [codeSize_congr hcfg hcode] at habove
    obtain ⟨hjump, hadvance⟩ := pcAfterAStep s t w hrun hfetch hstep
    have hbound := advance_le_codeSize_of_fetch hfetch
    have hstack : s.cfg.stack = .present := by
      cases hs : s.cfg.stack with
      | present => rfl
      | absent => rw [hadvance (.inl hs)] at habove; omega
    have hw : w &&& 0xF000 = 0xB000 := by
      by_contra hother
      rw [hadvance (.inr hother)] at habove
      omega
    have hpc := hjump hstack hw
    have hlayout : s.cfg.layout = .split := by
      cases hl : s.cfg.layout with
      | split => rfl
      | unified =>
        have htarget := and_imm_mask_toNat_le w
        rw [codeSize_of_unified hl, hpc] at habove
        omega
    exact ⟨by rw [← hlayout, ← hstack], hw, hpc⟩

/-- Settles O35: the register field is checked first; then a full stack stops the PUSH and an empty one the POP. -/
theorem stackOverflowAndUnderflowFault : Obligations.StackOverflowAndUnderflowFault :=
  fun _ _ imm hstack => ⟨fun h hsp => exec_push_of_full hstack h hsp imm,
    fun h hsp => exec_pop_of_empty hstack h hsp imm,
    fun h => ⟨exec_push_of_bad_field hstack h imm, exec_pop_of_bad_field hstack h imm⟩⟩

end Sys2Proof.Proofs

namespace Sys2Proof.Proofs

open Sys2Proof.Machine

variable {s t : State}

/-! ### A budget of steps (60_exceptions.md R162, R170) -/

theorem runBudget_of_halted (h : s.running = false) (n : Nat) : runBudget n s = .halted s := by
  obtain ⟨-, hbudget⟩ := haltedInstanceKeepsItsState n s h
  exact hbudget

theorem runBudget_zero_of_running (h : s.running = true) : runBudget 0 s = .budgetSpent s := if_pos h

theorem step_completes_or_faults (s : State) : (∃ t, step s = .next t) ∨ ∃ r, step s = .fault r := by
  cases h : step s with
  | next t => exact .inl ⟨t, rfl⟩
  | fault r => exact .inr ⟨r, rfl⟩
  | refused r => exact absurd h (noStepRefuses s r)

/-- Settles O57: by induction on the first budget, which a halt or a fault ends for both sides alike. -/
theorem budgetsCompose : Obligations.BudgetsCompose := by
  intro m n s
  induction m generalizing s with
  | zero =>
    rw [Nat.zero_add]
    cases hrun : s.running with
    | false => rw [runBudget_of_halted hrun, runBudget_of_halted hrun]; rfl
    | true => rw [runBudget_zero_of_running hrun]; rfl
  | succ m ih =>
    rw [Nat.add_right_comm]
    cases hrun : s.running with
    | false => rw [runBudget_of_halted hrun, runBudget_of_halted hrun]; rfl
    | true =>
      obtain ⟨t, hstep⟩ | ⟨r, hstep⟩ := step_completes_or_faults s
      · rw [runBudget_succ_of_next hrun hstep, runBudget_succ_of_next hrun hstep, ih]
      · rw [runBudget_succ_of_fault hstep, runBudget_succ_of_fault hstep]; rfl

/-- What the end of a budget of `n` steps from `s` says of the run: how many steps it took, and to which state. -/
def EndsTheRun (n : Nat) (s : State) : RunResult → Prop
  | .budgetSpent t => Host.Core.run Sys2Proof.core n s = .next t ∧ t.running = true
  | .faulted t r => t.running = true ∧ step t = .fault r ∧ ∃ k < n, Host.Core.run Sys2Proof.core k s = .next t
  | .halted t => t.running = false ∧ ∃ k ≤ n, Host.Core.run Sys2Proof.core k s = .next t
  | .refused _ _ => False

/-- One completed step in front of a run. -/
theorem endsTheRun_succ {n : Nat} {e : RunResult} (hstep : step s = .next t) (h : EndsTheRun n t e) :
    EndsTheRun (n + 1) s e := by
  have hrun {k : Nat} {u : State} (hu : Host.Core.run Sys2Proof.core k t = .next u) :
      Host.Core.run Sys2Proof.core (k + 1) s = .next u := run_succ_eq_next.mpr ⟨t, hstep, hu⟩
  cases e with
  | budgetSpent u =>
    obtain ⟨hu, hrunning⟩ := h
    exact ⟨hrun hu, hrunning⟩
  | faulted u r =>
    obtain ⟨hrunning, hfault, k, hk, hu⟩ := h
    exact ⟨hrunning, hfault, k + 1, Nat.succ_lt_succ hk, hrun hu⟩
  | halted u =>
    obtain ⟨hhalted, k, hk, hu⟩ := h
    exact ⟨hhalted, k + 1, Nat.succ_le_succ hk, hrun hu⟩
  | refused u r => exact h

theorem runBudget_endsTheRun (n : Nat) (s : State) : EndsTheRun n s (runBudget n s) := by
  induction n generalizing s with
  | zero =>
    cases hrun : s.running with
    | false => rw [runBudget_of_halted hrun]; exact ⟨hrun, 0, le_rfl, rfl⟩
    | true => rw [runBudget_zero_of_running hrun]; exact ⟨rfl, hrun⟩
  | succ n ih =>
    cases hrun : s.running with
    | false => rw [runBudget_of_halted hrun]; exact ⟨hrun, 0, Nat.zero_le _, rfl⟩
    | true =>
      obtain ⟨t, hstep⟩ | ⟨r, hstep⟩ := step_completes_or_faults s
      · rw [runBudget_succ_of_next hrun hstep]; exact endsTheRun_succ hstep (ih t)
      · rw [runBudget_succ_of_fault hstep]; exact ⟨hrun, hstep, 0, Nat.succ_pos n, rfl⟩

/-- Settles O58: each end of a budget is the end of its run, by induction on the budget. -/
theorem budgetLeavesTheStateOfItsSteps : Obligations.BudgetLeavesTheStateOfItsSteps := by
  intro n s t
  have hend := runBudget_endsTheRun n s
  refine ⟨fun h => ?_, fun r h => ?_, fun h => ?_⟩
  all_goals rw [h] at hend; exact hend

end Sys2Proof.Proofs

namespace Sys2Proof.Proofs

open Sys2Proof.Machine Sys2Proof.Claims

variable {s : State}

/-! ### The faults of a body (60_exceptions.md R161, R163) -/

/-- A body faults as the engine says, whose conditions do not read `pc`. -/
theorem exec_eq_fault_iff_firstFault {i : Instr} {r : Fault} :
    exec i s = .fault r ↔ firstFault s (fieldsOf (encode i)) = some r := by
  have hpc : (s.setPc (s.pc - 1)).advancePc = s := by simp [State.advancePc, State.setPc]
  have hexec : exec i s = engineOutcome (s.setPc (s.pc - 1)) (fieldsOf (encode i)) := by
    rw [← engineRuns i, hpc]
  have hfirst : firstFault (s.setPc (s.pc - 1)) (fieldsOf (encode i)) = firstFault s (fieldsOf (encode i)) := rfl
  rw [hexec, engineOutcome, hfirst]
  cases firstFault s (fieldsOf (encode i)) <;> simp

/-- Opcodes 12 to 15 have neither a row in R90 nor register fields. -/
theorem idle_of_unassigned (stack : StackOption) (low : BitVec 2) (r1 : Nibble) (imm : Byte) :
    controlOf stack (fieldsOf (encode (.unassigned low r1 imm))) = {} ∧
      usedRegFields stack (fieldsOf (encode (.unassigned low r1 imm))) = [] := by
  rw [encode, fieldsOf_encodeI]
  fin_cases low <;> exact ⟨rfl, rfl⟩

theorem idle_of_syscall_of_ne_zero (stack : StackOption) (r1 : Nibble) {imm : Byte} (himm : imm ≠ 0) :
    controlOf stack (fieldsOf (encode (.syscall r1 imm))) = {} := by
  rw [encode, fieldsOf_encodeI]
  cases stack <;> exact if_neg himm

/-- The engine checks the fields that 10_state.md R22 gives the instruction. -/
theorem usedRegFields_encode (stack : StackOption) (i : Instr) :
    usedRegFields stack (fieldsOf (encode i)) = registerFields stack i := by
  cases i with
  | add | shr | shl => rw [encode, fieldsOf_encodeR]; rfl
  | unassigned low r1 imm =>
    obtain ⟨-, hfields⟩ := idle_of_unassigned stack low r1 imm
    exact hfields
  | _ => rw [encode, fieldsOf_encodeI]; cases stack <;> rfl

/-- The instructions whose rows of R90 have a signal that a fault condition reads; a print pops where there is a
stack. -/
theorem faultSignals_encode (stack : StackOption) (i : Instr) :
    ((controlOf stack (fieldsOf (encode i))).push = true → stack = .present ∧ ∃ r1 imm, i = .push r1 imm) ∧
    ((controlOf stack (fieldsOf (encode i))).pop = true →
      stack = .present ∧ ((∃ r1 imm, i = .pop r1 imm) ∨ ∃ r1, i = .syscall r1 0)) ∧
    ((controlOf stack (fieldsOf (encode i))).print = true →
      (∃ r1, i = .syscall r1 0) ∧ (stack = .present → (controlOf stack (fieldsOf (encode i))).pop = true)) := by
  cases i with
  | unassigned low r1 imm =>
    obtain ⟨hidle, -⟩ := idle_of_unassigned stack low r1 imm
    rw [hidle]
    exact ⟨nofun, nofun, nofun⟩
  | add | shr | shl =>
    rw [encode, fieldsOf_encodeR]
    exact ⟨nofun, nofun, nofun⟩
  | syscall r1 imm =>
    by_cases himm : imm = 0
    · subst himm
      rw [encode, fieldsOf_encodeI]
      cases stack with
      | absent => exact ⟨nofun, nofun, fun _ => ⟨⟨r1, rfl⟩, nofun⟩⟩
      | present => exact ⟨nofun, fun _ => ⟨rfl, .inr ⟨r1, rfl⟩⟩, fun _ => ⟨⟨r1, rfl⟩, fun _ => rfl⟩⟩
    · rw [idle_of_syscall_of_ne_zero stack r1 himm]
      exact ⟨nofun, nofun, nofun⟩
  | push r1 imm =>
    rw [encode, fieldsOf_encodeI]
    cases stack with
    | absent => exact ⟨nofun, nofun, nofun⟩
    | present => exact ⟨fun _ => ⟨rfl, r1, imm, rfl⟩, nofun, nofun⟩
  | pop r1 imm =>
    rw [encode, fieldsOf_encodeI]
    cases stack with
    | absent => exact ⟨nofun, nofun, nofun⟩
    | present => exact ⟨nofun, fun _ => ⟨rfl, .inl ⟨r1, imm, rfl⟩⟩, nofun⟩
  | _ =>
    rw [encode, fieldsOf_encodeI]
    cases stack <;> exact ⟨nofun, nofun, nofun⟩

theorem isStringAddress_stringStart (h : s.cfg.stack = .present → s.sp ≠ 0) : IsStringAddress s (stringStart s) := by
  cases hstack : s.cfg.stack with
  | absent => exact .inl ⟨hstack, by rw [stringStart, hstack]; rfl⟩
  | present => exact .inr ⟨hstack, h hstack, by rw [stringStart, hstack]; rfl⟩

/-- A scan that finds no terminator has seen every byte of its words. -/
theorem no_zero_of_scanString_none {m : Memory} {n a : Nat} (h : scanString m n a = none) :
    ∀ j < 2 * n, streamByte m a j ≠ 0 := by
  intro j
  induction j using Nat.strong_induction_on with
  | _ j ih =>
    intro hj hzero
    rw [scanString_of_first_zero hj hzero fun l hl => ih l hl (hl.trans hj)] at h
    cases h

theorem find?_not_regFieldOk (ks : List Nibble) :
    ks.find? (fun k => !regFieldOk k) = ks.find? (fun k => decide (4 ≤ k.toNat)) := by
  have hbad (k : Nibble) : (!regFieldOk k) = decide (4 ≤ k.toNat) := by
    rw [regFieldOk, ← decide_not]
    simp only [not_lt]
  simp only [hbad]

theorem registerFields_lt_of_wellFormed {stack : StackOption} {i : Instr} (h : i.wellFormed = true) :
    ∀ k ∈ registerFields stack i, k.toNat < 4 := by
  cases i with
  | nop | syscall | halt | jump | unassigned => nofun
  | push | pop =>
    cases stack with
    | absent => simp
    | present => simpa [Instr.wellFormed, regFieldOk] using h
  | _ => simpa [Instr.wellFormed, regFieldOk, and_assoc] using h

/-- The rows of the fault table of 60_exceptions.md R161 that a body can raise: the instruction, the condition and the
information. -/
inductive FaultRow (s : State) : Instr → Fault → Prop where
  | badField {i : Instr} (k : Nibble)
      (hfirst : (registerFields s.cfg.stack i).find? (fun f => decide (4 ≤ f.toNat)) = some k) :
      FaultRow s i (.regIndexOutOfRange k)
  | pushFull (r1 : Nibble) (imm : Byte) (hstack : s.cfg.stack = .present) (hsp : s.sp = 256) :
      FaultRow s (.push r1 imm) .stackOverflow
  | popEmpty {i : Instr} (hi : (∃ r1 imm, i = .pop r1 imm) ∨ ∃ r1, i = .syscall r1 0)
      (hstack : s.cfg.stack = .present) (hsp : s.sp = 0) : FaultRow s i .stackUnderflow
  | addressAbove (r1 : Nibble) (a : Word) (haddr : IsStringAddress s a) (habove : 256 ≤ a.toNat) :
      FaultRow s (.syscall r1 0) (.syscallAddrOutOfRange a)
  | noTerminator (r1 : Nibble) (a : Word) (haddr : IsStringAddress s a) (hle : a.toNat ≤ 255)
      (hno : ∀ j < 2 * (256 - a.toNat), streamByte s.mem a.toNat j ≠ 0) :
      FaultRow s (.syscall r1 0) (.stringUnterminated a)

theorem faultRow_of_exec {i : Instr} {r : Fault} (h : exec i s = .fault r) : FaultRow s i r := by
  rw [exec_eq_fault_iff_firstFault] at h
  obtain ⟨hpushRow, hpopRow, hprintRow⟩ := faultSignals_encode s.cfg.stack i
  simp only [firstFault, usedRegFields_encode, find?_not_regFieldOk] at h
  split at h
  next k hfirst => cases h; exact .badField k hfirst
  next =>
    split_ifs at h with hpush hpop hprint habove hscan
    · obtain ⟨hsignal, hfull⟩ := Bool.and_eq_true_iff.mp hpush
      obtain ⟨hstack, r1, imm, rfl⟩ := hpushRow hsignal
      cases h
      exact .pushFull r1 imm hstack (of_decide_eq_true hfull)
    · obtain ⟨hsignal, hempty⟩ := Bool.and_eq_true_iff.mp hpop
      obtain ⟨hstack, hi⟩ := hpopRow hsignal
      cases h
      exact .popEmpty hi hstack (of_decide_eq_true hempty)
    all_goals
      obtain ⟨⟨r1, rfl⟩, hpops⟩ := hprintRow hprint
      have haddr : IsStringAddress s (stringStart s) := isStringAddress_stringStart fun hstack hsp =>
        hpop (Bool.and_eq_true_iff.mpr ⟨hpops hstack, decide_eq_true hsp⟩)
      cases h
    · exact .addressAbove r1 _ haddr habove
    · exact .noTerminator r1 _ haddr (Nat.not_lt.mp habove)
        (no_zero_of_scanString_none (Option.isNone_iff_eq_none.mp hscan))

/-- Settles O46: the reason and the instruction select the row of the table. -/
theorem faultsOnlyAsTheTableSays : Obligations.FaultsOnlyAsTheTableSays := by
  intro i s r h
  cases faultRow_of_exec h with
  | badField k hfirst =>
    have hbad : 4 ≤ k.toNat := by simpa using List.find?_some hfirst
    have hill : i.wellFormed = false := Bool.eq_false_iff.mpr fun hwf =>
      Nat.not_lt.mpr hbad (registerFields_lt_of_wellFormed hwf k (List.mem_of_find?_eq_some hfirst))
    exact ⟨nofun, by rintro _ ⟨⟩; exact ⟨hbad, hill, hfirst⟩, nofun, nofun, nofun, nofun⟩
  | pushFull r1 imm hstack hsp => exact ⟨nofun, nofun, fun _ => ⟨hstack, hsp, r1, imm, rfl⟩, nofun, nofun, nofun⟩
  | popEmpty hi hstack hsp => exact ⟨nofun, nofun, nofun, fun _ => ⟨hstack, hsp, hi⟩, nofun, nofun⟩
  | addressAbove r1 a haddr habove =>
    exact ⟨nofun, nofun, nofun, nofun, by rintro _ ⟨⟩; exact ⟨habove, haddr, r1, rfl⟩, nofun⟩
  | noTerminator r1 a haddr hle hno =>
    exact ⟨nofun, nofun, nofun, nofun, nofun, by rintro _ ⟨⟩; exact ⟨hle, haddr, hno, r1, rfl⟩⟩

end Sys2Proof.Proofs

namespace Sys2Proof.Proofs

open Sys2Proof.Machine

/-! ### Well-formed instructions (30_encoding.md R66; 70_reset_and_hazards.md R185) -/

/-- Settles O22: the register fault is only raised by an ill-formed instruction (R161). -/
theorem wellFormedNeverRaisesRegIndex : Obligations.WellFormedNeverRaisesRegIndex := by
  intro i s k hwf hfault
  obtain ⟨-, hreg, -⟩ := faultsOnlyAsTheTableSays i s _ hfault
  obtain ⟨-, hill, -⟩ := hreg k rfl
  exact Bool.eq_false_iff.mp hill hwf

/-! ### Which programs construction takes (70_reset_and_hazards.md R181, R182) -/

theorem construct_refuses_iff {P : List Word} {cfg : Config} :
    construct P cfg = .error (.programTooLong P.length) ↔ Config.maxProgramWords cfg.layout < P.length := by
  constructor
  · intro hrefused
    by_contra hlong
    rw [construct_of_fits (Nat.not_lt.mp hlong)] at hrefused
    cases hrefused
  · exact fun hlong => if_neg (Nat.not_le.mpr hlong)

/-- Settles O49: construction refuses above the bound of the layout. -/
theorem tooLongProgramsAreRefused : Obligations.TooLongProgramsAreRefused :=
  fun _ _ => ⟨construct_refuses_iff, construct_refuses_iff⟩

/-- Settles O53: the invariant is read off the constructed instance. -/
theorem invariantHoldsAfterConstruction : Obligations.InvariantHoldsAfterConstruction :=
  fun _ _ _ => inv_of_construct

/-! ### The program load (70_reset_and_hazards.md R180; 20_memory.md R58) -/

/-- Writing the word after the last one of a placed program places the longer program. -/
theorem write_ofWords_next (ws : List Word) (a : Nat) (w : Word) :
    (Memory.ofWords a ws).write (a + ws.length) w = Memory.ofWords a (ws ++ [w]) := by
  induction ws generalizing a with
  | nil => rfl
  | cons v ws ih =>
    have hnext : a + (v :: ws).length = a + 1 + ws.length := by simp only [List.length_cons]; omega
    have hlt : ¬a + 1 + ws.length < a := by omega
    have hne : ¬a + 1 + ws.length = a := by omega
    rw [hnext, List.cons_append, Memory.ofWords, Memory.ofWords, ← ih (a + 1)]
    split
    · rfl
    · simp only [Memory.write, hlt, hne, if_false]

/-- The instance in the middle of its program load: the words of `loaded` are written, `n` words are still to come. -/
def loadingState (cfg : Config) (loaded : List Word) (n : Nat) : State :=
  { rstState cfg (loaded.length + n) with
    mem := initialMemory cfg.layout loaded
    code := initialCode cfg.layout (loaded ++ List.replicate n 0) }

variable {cfg : Config} {loaded : List Word}

theorem loadingState_nil (cfg : Config) (n : Nat) : loadingState cfg [] n = rstState cfg n := by
  obtain ⟨layout, stack⟩ := cfg
  cases layout <;> simp [loadingState, rstState, initialMemory, initialCode, Memory.ofWords]

theorem construct_eq_loadingState (hfits : loaded.length ≤ Config.maxProgramWords cfg.layout) :
    construct loaded cfg = .ok (loadingState cfg loaded 0) := by
  rw [construct_of_fits hfits, loadingState, List.replicate_zero, List.append_nil]
  rfl

theorem maxProgramWords_lt (layout : Layout) : Config.maxProgramWords layout < 65536 := by
  cases layout <;> decide

theorem loadPort_loadingState {n : Nat} (w : Word)
    (hfits : loaded.length + (n + 1) ≤ Config.maxProgramWords cfg.layout) :
    (loadingState cfg loaded (n + 1)).loadPort (BitVec.ofNat 16 loaded.length) w =
      loadingState cfg (loaded ++ [w]) n := by
  have hbound := maxProgramWords_lt cfg.layout
  have haddr : (BitVec.ofNat 16 loaded.length).toNat = loaded.length :=
    Nat.mod_eq_of_lt (show loaded.length < 65536 by omega)
  obtain ⟨layout, stack⟩ := cfg
  cases layout with
  | unified =>
    have hlt : loaded.length < 256 := Nat.lt_of_lt_of_le (Nat.lt_add_of_pos_right n.succ_pos) hfits
    have hwrite := write_ofWords_next loaded 0 w
    rw [Nat.zero_add] at hwrite
    simp [State.loadPort, State.codeSize, loadingState, rstState, initialMemory, initialCode, haddr, hlt, hwrite]
  | split =>
    simp [State.loadPort, State.codeSize, loadingState, rstState, initialMemory, initialCode, haddr,
      List.replicate_succ]

theorem loadFrom_loadingState (ws : List Word)
    (hfits : loaded.length + ws.length ≤ Config.maxProgramWords cfg.layout) :
    (loadingState cfg loaded ws.length).loadFrom loaded.length ws = loadingState cfg (loaded ++ ws) 0 := by
  induction ws generalizing loaded with
  | nil => rw [List.append_nil]; rfl
  | cons w ws ih =>
    have hlength : (loaded ++ [w]).length = loaded.length + 1 := List.length_append
    rw [List.length_cons] at hfits ⊢
    rw [State.loadFrom, loadPort_loadingState w hfits, ← hlength, ih (by omega), List.append_assoc]
    rfl

/-- Settles O50: word after word, the load turns the `rst` state into the constructed instance. -/
theorem constructionIsRstThenLoad : Obligations.ConstructionIsRstThenLoad := by
  intro P cfg hfits
  have hload := loadFrom_loadingState (cfg := cfg) (loaded := []) P (by simpa using hfits)
  rw [loadingState_nil] at hload
  exact hload ▸ construct_eq_loadingState hfits

end Sys2Proof.Proofs
